-- ==== Sys2Proof/Word.lean ====
section
/-! DEFINITION. The word types of the block: a register word, a byte, and the flag engine's wide intermediate. -/

namespace Sys2Proof

/-- A general register, the pc and a branch displacement: 32 bits (R7, R11, R15, R56). -/
abbrev Word := BitVec 32

/-- The unit of both memories and of the instruction stream (R30, R50). -/
abbrev Byte := BitVec 8

/-- The 64-bit two's-complement intermediate of the arithmetic unit (R7, R100). -/
abbrev Wide := BitVec 64

end Sys2Proof
end

