-- ==== Sys2Proof/Config.lean ====
section
/-! DEFINITION. The block's fixed parameters (00_scope.md R7). The host-supplied ones (`CODE_SIZE`, `code`, `DATA_INIT`, `R0_INIT`)
are the fields of `Sys2Proof.Machine.HostInputs`. The spec leaves no value free, so there is no opaque constant here. -/

namespace Sys2Proof.Config

/-- `NREG`, the number of general registers (R7, R11). -/
def nReg : Nat := 16

/-- `DATA_SIZE`, the bytes of the data memory (R7, R22). -/
def dataSize : Nat := 256

/-- The largest `CODE_SIZE`, the reach of a 32-bit pc (R7, R21; decision D11). -/
def maxCodeSize : Nat := 2 ^ 32

/-- `BRANCH_TAKEN_BASE`, the bytes added to the pc with the displacement on a taken branch (R7, R134).
UNVERIFIED, unsafe: conflict C1 and decision D1 choose 6, the alternative reading is 0 (log 7). -/
def branchTakenBase : Nat := 6

end Sys2Proof.Config
end

