-- ==== Sys2Proof/Machine/State.lean ====
section
/-! DEFINITION. The machine's state as plain data (10_state.md R10), its fault and refusal types, and the reset state. -/

namespace Sys2Proof.Machine

/-- The three flags, independent bits with no word layout (R17). -/
structure Flags where
  /-- Zero. -/
  z : Bool
  /-- Negative. -/
  n : Bool
  /-- Overflow. -/
  o : Bool
  deriving DecidableEq, Repr

/-- The run status (R10, R27). A fault outcome records the pc at which its step began (R150). -/
inductive Status where
  | running
  | halted
  | illegalInstruction (pc : Word)
  | programCounterOutOfRange (pc : Word)
  | registerIndexOutOfRange (pc : Word)
  deriving DecidableEq, Repr

/-- One memory: the bytes at the listed addresses, in the canonical form `Memory.wf` of Machine/Ops.lean. -/
abbrev Memory := List Host.Cell

/-- The architectural state (R10) with the code memory the host supplied for the run (R21). -/
structure State where
  /-- `x[0]` to `x[15]` (R11). -/
  regs : Vector Word 16
  /-- `Z`, `N`, `O` (R17). -/
  flags : Flags
  /-- The program counter, a byte offset into the code memory (R15). -/
  pc : Word
  /-- `CODE_SIZE` (R21). -/
  codeSize : Nat
  /-- The code memory's bytes at offsets below `codeSize` (R21). -/
  code : Memory
  /-- The data memory's bytes at offsets 0 to 255 (R22). -/
  data : Memory
  /-- The run status (R27). -/
  status : Status
  deriving DecidableEq, Repr

/-- Why a step can stop without a next state. -/
inductive Fault where
  /-- Raised by `step` alone, when it is asked of a run that has ended with the outcome given: the block takes no further step
  (R27, R83). The three fault outcomes of R150 are NOT this: they are next states whose status is the outcome. Safe: nothing is
  claimed of a step the block does not take (DESIGN CHOICE, log 1). -/
  | runEnded (outcome : Status)
  deriving DecidableEq, Repr

/-- Why an instruction can have no meaning. -/
inductive Refusal where
  /-- Raised by an arm of `exec` whose instruction has no meaning in the model. No arm raises it. Safe. -/
  | notModelled (mnemonic : String)
  deriving DecidableEq, Repr

/-- The machine right after reset: R23 to R27 for a host that has supplied no code, no `DATA_INIT` and the input 0. The zero in
`x[0]` (log 2) and the empty code memory (log 3) are DESIGN CHOICES, unsafe. `State.start` takes the host's inputs. -/
def State.reset : State where
  regs := Vector.replicate 16 0
  flags := ⟨false, false, false⟩
  pc := 0
  codeSize := 0
  code := []
  data := []
  status := .running

end Sys2Proof.Machine
end

