-- ==== Sys2Proof/Machine/Ops.lean ====
section
/-! DEFINITION. The named operations: reading and writing memory, registers, flags and pc, raising a fault outcome, halting. -/

namespace Sys2Proof.Machine

/-- What an address no cell lists reads as: 0, the default content of the data memory (R26; DESIGN CHOICE, unsafe: log 4). Of the
code memory it says only that a zero byte is not listed. -/
def unlistedByte (_ : Nat) : Byte := 0

/-- The byte at an address. -/
def Memory.read : Memory → Nat → Byte
  | [], a => unlistedByte a
  | c :: m, a => if c.1 = a then c.2 else Memory.read m a

/-- A memory without its cells at an address. -/
def Memory.erase : Memory → Nat → Memory
  | [], _ => []
  | c :: m, a => if c.1 = a then Memory.erase m a else c :: Memory.erase m a

/-- A memory with one more cell, before the first cell of a higher address. -/
def Memory.insert : Memory → Nat → Byte → Memory
  | [], a, v => [(a, v)]
  | c :: m, a, v => if a < c.1 then (a, v) :: c :: m else c :: Memory.insert m a v

/-- A memory with one byte written, kept in canonical form: a byte equal to the unlisted one has no cell. -/
def Memory.write (m : Memory) (a : Nat) (v : Byte) : Memory :=
  if v = unlistedByte a then Memory.erase m a else Memory.insert (Memory.erase m a) a v

/-- Consecutive bytes written from an address on. -/
def Memory.writeBytes : Memory → Nat → List Byte → Memory
  | m, _, [] => m
  | m, a, b :: bs => Memory.writeBytes (Memory.write m a b) (a + 1) bs

/-- `n` consecutive bytes from an address on. -/
def Memory.readBytes (m : Memory) : Nat → Nat → List Byte
  | _, 0 => []
  | a, n + 1 => Memory.read m a :: Memory.readBytes m (a + 1) n

/-- The memory that holds the given bytes from an address on and is unlisted elsewhere. -/
def Memory.ofBytes : Nat → List Byte → Memory
  | _, [] => []
  | a, b :: bs => if b = unlistedByte a then Memory.ofBytes (a + 1) bs else (a, b) :: Memory.ofBytes (a + 1) bs

/-- The canonical form: addresses strictly rising, no cell equal to what its address reads as unlisted. -/
abbrev Memory.wf (m : Memory) : Prop :=
  m.Pairwise (fun c d => c.1 < d.1) ∧ ∀ c ∈ m, c.2 ≠ unlistedByte c.1

/-- Every listed address is below a bound. -/
abbrev Memory.below (m : Memory) (size : Nat) : Prop := ∀ c ∈ m, c.1 < size

/-- `Fetch(a)`: the code byte at an offset (R8, R31). -/
def fetchByte (s : State) (a : Nat) : Byte := Memory.read s.code a

/-- `MemRead(k, 1)` (R8, R33). -/
def loadByte (k : Nat) (s : State) : Byte := Memory.read s.data k

/-- `MemWrite(k, 1, v)` (R8, R33). -/
def storeByte (k : Nat) (v : Byte) (s : State) : State := { s with data := Memory.write s.data k v }

/-- The index of a general register (R11). -/
abbrev RegIdx := Fin 16

/-- `x[i]` (R8, R11). No register is hardwired (R12). -/
def readReg (i : RegIdx) (s : State) : Word := s.regs[i]

/-- `x[i] <- v` (R8, R11). -/
def writeReg (i : RegIdx) (v : Word) (s : State) : State := { s with regs := s.regs.set i v }

/-- All three flags written together (R104). -/
def setFlags (f : Flags) (s : State) : State := { s with flags := f }

/-- `pc <- t` (R8). -/
def setPc (t : Word) (s : State) : State := { s with pc := t }

/-- The sequential advance by an instruction's width, modulo 2^32 (R77, R135; UNVERIFIED for the modulus, unsafe: log 13). -/
def advance (width : Nat) (s : State) : State := setPc (s.pc + BitVec.ofNat 32 width) s

/-- The three causes that end a run with a fault outcome (R150, R152, R153, R154). -/
inductive Cause where
  | illegalInstruction
  | programCounterOutOfRange
  | registerIndexOutOfRange
  deriving DecidableEq, Repr

/-- The outcome of a cause, with the pc it records (R150). -/
def causeStatus : Cause → Word → Status
  | .illegalInstruction, pc => .illegalInstruction pc
  | .programCounterOutOfRange, pc => .programCounterOutOfRange pc
  | .registerIndexOutOfRange, pc => .registerIndexOutOfRange pc

/-- `raise K(pc)`: the run status becomes the outcome and nothing else changes (R71, R155). No state is saved and no handler is
entered (R157), and there is no return (R158), so no operation stands beside it. -/
def raise (k : Cause) (s : State) : State := { s with status := causeStatus k s.pc }

/-- `status <- Halted`, the pc kept at the `H` (R137; UNVERIFIED for the pc, unsafe: log 14). -/
def haltRun (s : State) : State := { s with status := .halted }

end Sys2Proof.Machine
end

