-- ==== Sys2Proof/Machine/Flags.lean ====
section
/-! DEFINITION. The flag engine and the branch conditions (42_arithmetic.md, 44_control.md). -/

namespace Sys2Proof.Machine

/-- The 64-bit intermediate of an addition of two zero-extended registers (R100). -/
def addWide (a b : Word) : Wide := a.setWidth 64 + b.setWidth 64

/-- The 64-bit intermediate of a subtraction of two zero-extended registers, two's complement (R100). -/
def subWide (a b : Word) : Wide := a.setWidth 64 - b.setWidth 64

/-- `trunc32(I)` (R8). -/
def trunc32 (i : Wide) : Word := i.setWidth 32

/-- `ComputeFlags(I)`: Zero from the whole intermediate (R101; UNVERIFIED, unsafe: log 15), Negative from bit 31 of the truncated
result (R102), Overflow from any bit above the low 32 (R103). -/
def computeFlags (i : Wide) : Flags where
  z := i == 0
  n := (trunc32 i).msb
  o := i.extractLsb' 32 32 != 0

/-- `Cond(E) = Z` (R131). -/
def condEqual (f : Flags) : Bool := f.z

/-- `Cond(N) = not Z` (R132). -/
def condNotEqual (f : Flags) : Bool := !f.z

/-- `Cond(L) = N xor O`, whatever Zero is (R133, conflict C5). -/
def condLess (f : Flags) : Bool := f.n != f.o

end Sys2Proof.Machine
end

