-- ==== Sys2Proof/Machine/Operands.lean ====
section
/-! DEFINITION. The operand forms: register bytes, the immediate, the data effective address, the branch target. -/

namespace Sys2Proof.Machine

/-- The register a register-operand byte names, whole and unmasked: none from 16 on (R14, R54). -/
def regIndex (b : Byte) : Option RegIdx := if h : b.toNat < 16 then some ⟨b.toNat, h⟩ else none

/-- The operand byte that names a register (R54). -/
def regByte (i : RegIdx) : Byte := BitVec.ofNat 8 i.val

/-- An instruction with one register field: `RegisterIndexOutOfRange` before any change where the byte names none (R76;
UNVERIFIED, safe: log 10). -/
def withReg (a : Byte) (s : State) (k : RegIdx → State) : Host.Outcome State Fault Refusal :=
  match regIndex a with
  | some i => .next (k i)
  | none => .next (raise .registerIndexOutOfRange s)

/-- An instruction with two register fields, raising once when either byte names none (R76, R156). -/
def withRegs (a b : Byte) (s : State) (k : RegIdx → RegIdx → State) : Host.Outcome State Fault Refusal :=
  match regIndex a, regIndex b with
  | some i, some j => .next (k i j)
  | none, some _ => .next (raise .registerIndexOutOfRange s)
  | some _, none => .next (raise .registerIndexOutOfRange s)
  | none, none => .next (raise .registerIndexOutOfRange s)

/-- The low 8 bits of a register, the byte `S` stores (R33, R91). -/
def lowByte (v : Word) : Byte := v.extractLsb' 0 8

/-- A byte zero-extended to a register: the immediate of `I` (R55) and the byte `L` loads (R33, R92). -/
def zextByte (b : Byte) : Word := b.setWidth 32

/-- `EA(p)`: the low 8 bits of the pointer register read as a signed number, -128 to 127 (R32). -/
def effectiveAddress (p : Word) : Int := (lowByte p).toInt

/-- `Offset(p)`: the data byte an effective address selects (R32; UNVERIFIED, unsafe: log 11). -/
def dataOffset (p : Word) : Nat := (effectiveAddress p % (Config.dataSize : Int)).toNat

/-- The taken-branch target: `(pc + BRANCH_TAKEN_BASE + disp) mod 2^32`, the displacement signed (R134; UNVERIFIED, unsafe: log 7). -/
def branchTarget (pc disp : Word) : Word :=
  BitVec.ofInt 32 ((pc.toNat : Int) + (Config.branchTakenBase : Int) + disp.toInt)

/-- The width of a branch, the advance when it is not taken (R135). -/
def branchWidth : Nat := 6

/-- The pc after a branch (R130). -/
def branch (taken : Bool) (disp : Word) (s : State) : State :=
  if taken then setPc (branchTarget s.pc disp) s else advance branchWidth s

end Sys2Proof.Machine
end

