-- ==== Sys2Proof/Machine/Arithmetic.lean ====
section
/-! DEFINITION. `A` and `U` (42_arithmetic.md). -/

namespace Sys2Proof.Machine

/-- The result of an arithmetic instruction written back: the truncated register and the three flags of the intermediate (R104). -/
def writeArith (d : RegIdx) (i : Wide) (s : State) : State :=
  advance 3 (setFlags (computeFlags i) (writeReg d (trunc32 i) s))

/-- `A` (R105): both operands are read before the write. -/
def execAdd (dst src : Byte) (s : State) : Host.Outcome State Fault Refusal :=
  withRegs dst src s fun d r => writeArith d (addWide (readReg d s) (readReg r s)) s

/-- `U` (R106): both operands are read before the write. -/
def execSub (dst src : Byte) (s : State) : Host.Outcome State Fault Refusal :=
  withRegs dst src s fun d r => writeArith d (subWide (readReg d s) (readReg r s)) s

end Sys2Proof.Machine
end

