-- ==== Sys2Proof/Machine/Control.lean ====
section
/-! DEFINITION. `BE`, `BN`, `BL` and `H` (44_control.md). -/

namespace Sys2Proof.Machine

/-- `BE` (R130, R131). -/
def execBe (disp : Word) (s : State) : Host.Outcome State Fault Refusal :=
  .next (branch (condEqual s.flags) disp s)

/-- `BN` (R130, R132). -/
def execBn (disp : Word) (s : State) : Host.Outcome State Fault Refusal :=
  .next (branch (condNotEqual s.flags) disp s)

/-- `BL` (R130, R133). -/
def execBl (disp : Word) (s : State) : Host.Outcome State Fault Refusal :=
  .next (branch (condLess s.flags) disp s)

/-- `H` (R137). -/
def execHalt (s : State) : Host.Outcome State Fault Refusal := .next (haltRun s)

end Sys2Proof.Machine
end

