-- ==== Sys2Proof/Machine/LoadStore.lean ====
section
/-! DEFINITION. `S` and `L` (41_load_store.md). -/

namespace Sys2Proof.Machine

/-- `S` (R91). -/
def execStore (ptr val : Byte) (s : State) : Host.Outcome State Fault Refusal :=
  withRegs ptr val s fun p v =>
    advance 3 (storeByte (dataOffset (readReg p s)) (lowByte (readReg v s)) s)

/-- `L` (R92): the address is read before the destination is written. -/
def execLoad (ptr dst : Byte) (s : State) : Host.Outcome State Fault Refusal :=
  withRegs ptr dst s fun p d =>
    advance 3 (writeReg d (zextByte (loadByte (dataOffset (readReg p s)) s)) s)

end Sys2Proof.Machine
end

