-- ==== Sys2Proof/Machine/Move.lean ====
section
/-! DEFINITION. `M` and `I` (43_move.md). -/

namespace Sys2Proof.Machine

/-- `M` (R120). -/
def execMovr (dst src : Byte) (s : State) : Host.Outcome State Fault Refusal :=
  withRegs dst src s fun d r => advance 3 (writeReg d (readReg r s) s)

/-- `I` (R121): the immediate byte is never checked (R76). -/
def execMovi (dst imm8 : Byte) (s : State) : Host.Outcome State Fault Refusal :=
  withReg dst s fun d => advance 3 (writeReg d (zextByte imm8) s)

end Sys2Proof.Machine
end

