-- ==== Sys2Proof/Syntax.lean ====
section
/-! DEFINITION. The instructions: one constructor per row of the opcode table, and the eight opcodes of R2. -/

namespace Sys2Proof

/-- The eight opcodes, each one ASCII letter (R2, R59). -/
inductive Opcode where
  | store | load | add | sub | movr | movi | branch | halt
  deriving DecidableEq, Repr

/-- The instructions. A register operand is the whole byte of the encoding (R14, R54): values 16 to 255 name no register, and
`Instr.wellFormed` tells them apart. `disp` is the signed 32-bit byte displacement (R56). -/
inductive Instr where
  /-- `S` (R91): the pointer register and the value register. -/
  | store (ptr val : Byte)
  /-- `L` (R92): the pointer register and the destination register. -/
  | load (ptr dst : Byte)
  /-- `A` (R105). -/
  | add (dst src : Byte)
  /-- `U` (R106). -/
  | sub (dst src : Byte)
  /-- `M` (R120). -/
  | movr (dst src : Byte)
  /-- `I` (R121). -/
  | movi (dst imm8 : Byte)
  /-- `BE` (R131). -/
  | be (disp : Word)
  /-- `BN` (R132). -/
  | bn (disp : Word)
  /-- `BL` (R133). -/
  | bl (disp : Word)
  /-- `H` (R137). -/
  | halt
  deriving DecidableEq, Repr

end Sys2Proof
end

