-- ==== Sys2Proof/Machine/Dispatch.lean ====
section
/-! DEFINITION. One arm per instruction. -/

namespace Sys2Proof.Machine

-- `Execute(op, operands, s)` of R71, the one semantics module of R82
def exec (i : Instr) (s : State) : Host.Outcome State Fault Refusal :=
  match i with
  | .store ptr val => Sys2Proof.Machine.execStore ptr val s
  | .load ptr dst => Sys2Proof.Machine.execLoad ptr dst s
  | .add dst src => Sys2Proof.Machine.execAdd dst src s
  | .sub dst src => Sys2Proof.Machine.execSub dst src s
  | .movr dst src => Sys2Proof.Machine.execMovr dst src s
  | .movi dst imm8 => Sys2Proof.Machine.execMovi dst imm8 s
  | .be disp => Sys2Proof.Machine.execBe disp s
  | .bn disp => Sys2Proof.Machine.execBn disp s
  | .bl disp => Sys2Proof.Machine.execBl disp s
  | .halt => Sys2Proof.Machine.execHalt s

end Sys2Proof.Machine
end

