-- ==== Sys2Proof/Decode.lean ====
section
/-! DEFINITION. Instruction bytes to an instruction, and back (30_encoding.md). -/

namespace Sys2Proof

/-- The opcode tags, ASCII letters with the byte values of R52 (UNVERIFIED, unsafe: log 16). -/
def opcodeTag : Opcode → Byte
  | .store => 0x53
  | .load => 0x4C
  | .add => 0x41
  | .sub => 0x55
  | .movr => 0x4D
  | .movi => 0x49
  | .branch => 0x42
  | .halt => 0x48

/-- The opcode map on `b0` (R59). The other 248 bytes are illegal (R61). -/
def opcodeOf (b : Byte) : Option Opcode :=
  if b = 0x53 then some .store
  else if b = 0x4C then some .load
  else if b = 0x41 then some .add
  else if b = 0x55 then some .sub
  else if b = 0x4D then some .movr
  else if b = 0x49 then some .movi
  else if b = 0x42 then some .branch
  else if b = 0x48 then some .halt
  else none

/-- `Len(op)`, decided by the opcode alone (R50, R60). -/
def opcodeLen : Opcode → Nat
  | .branch => 6
  | .halt => 1
  | .store => 3
  | .load => 3
  | .add => 3
  | .sub => 3
  | .movr => 3
  | .movi => 3

/-- The condition tags of `B` (R52, R57). -/
def condTagE : Byte := 0x45
def condTagN : Byte := 0x4E
def condTagL : Byte := 0x4C

/-- `le32(b0, b1, b2, b3)`: four bytes, the first the least significant (R8, R34, R56). -/
def le32 (b0 b1 b2 b3 : Byte) : Word := b3 ++ b2 ++ b1 ++ b0

/-- Byte `k` of a word, byte 0 the least significant (R34, R51). -/
def wordByte (w : Word) (k : Nat) : Byte := w.extractLsb' (8 * k) 8

/-- Why bytes are no instruction. -/
inductive DecodeError where
  /-- The bytes end before the instruction does (R74). -/
  | truncated
  /-- The first byte is no opcode tag (R61, R62). -/
  | illegalOpcode (b : Byte)
  /-- The second byte of a `B` is no condition tag (R57, R63). -/
  | illegalCondition (b : Byte)
  deriving DecidableEq, Repr

/-- The two operand bytes of format RR, `b1` then `b2` (R51, R53; UNVERIFIED, unsafe: log 12). -/
def decodeRR (mk : Byte → Byte → Instr) : List Byte → Except DecodeError (Instr × List Byte)
  | a :: b :: rest => .ok (mk a b, rest)
  | _ => .error .truncated

/-- The condition byte and the displacement of format BR (R51, R56, R57, R63). -/
def decodeBR : List Byte → Except DecodeError (Instr × List Byte)
  | c :: d0 :: d1 :: d2 :: d3 :: rest =>
    if c = condTagE then .ok (.be (le32 d0 d1 d2 d3), rest)
    else if c = condTagN then .ok (.bn (le32 d0 d1 d2 d3), rest)
    else if c = condTagL then .ok (.bl (le32 d0 d1 d2 d3), rest)
    else .error (.illegalCondition c)
  | _ => .error .truncated

/-- The decoder: the instruction at the head of a byte sequence and the bytes after it (R58, R59). It checks in the order of R71:
opcode, whole instruction present, condition tag. -/
def decode : List Byte → Except DecodeError (Instr × List Byte)
  | [] => .error .truncated
  | op :: rest =>
    match opcodeOf op with
    | some .store => decodeRR .store rest
    | some .load => decodeRR .load rest
    | some .add => decodeRR .add rest
    | some .sub => decodeRR .sub rest
    | some .movr => decodeRR .movr rest
    | some .movi => decodeRR .movi rest
    | some .branch => decodeBR rest
    | some .halt => .ok (.halt, rest)
    | none => .error (.illegalOpcode op)

/-- The bytes of format BR (R51, R66). -/
def encodeBR (c : Byte) (disp : Word) : List Byte :=
  [opcodeTag .branch, c, wordByte disp 0, wordByte disp 1, wordByte disp 2, wordByte disp 3]

/-- The encoder: the bytes of an instruction, the first at the lowest offset (R51, R53, R66). -/
def encode : Instr → List Byte
  | .store ptr val => [opcodeTag .store, ptr, val]
  | .load ptr dst => [opcodeTag .load, ptr, dst]
  | .add dst src => [opcodeTag .add, dst, src]
  | .sub dst src => [opcodeTag .sub, dst, src]
  | .movr dst src => [opcodeTag .movr, dst, src]
  | .movi dst imm8 => [opcodeTag .movi, dst, imm8]
  | .be disp => encodeBR condTagE disp
  | .bn disp => encodeBR condTagN disp
  | .bl disp => encodeBR condTagL disp
  | .halt => [opcodeTag .halt]

/-- The longest instruction has 6 bytes (R50). -/
def maxInstrLen : Nat := 6

/-- The low `n` bytes of a number, the least significant first: `W[8k+7:8k] = bk` (R51). -/
def bytesOfNat : Nat → Nat → List Byte
  | 0, _ => []
  | n + 1, w => BitVec.ofNat 8 w :: bytesOfNat n (w / 256)

/-- The bytes of an instruction given as the opcode table's number `W`, the bits above `nbits` zero. -/
def tableBytes (nbits w : Nat) : List Byte := bytesOfNat maxInstrLen (w % 2 ^ nbits)

/-- The instruction the decoder reads from the opcode table's number `W` (R51). -/
def decodeTableWord (nbits w : Nat) : Option Instr :=
  match decode (tableBytes nbits w) with
  | .ok (i, _) => some i
  | .error _ => none

end Sys2Proof
end

