-- ==== Sys2Proof/Machine/Fetch.lean ====
section
/-! DEFINITION. Fetch and decode: the checks of the dispatch cycle up to the register fields (40_dispatch_cycle.md R71), and where
an instruction's bytes are placed to be fetched. -/

namespace Sys2Proof.Machine

/-- What a step fetches: the code offsets it asks for, in order, and the instruction or the cause that ends the run. -/
structure Fetch where
  /-- The `code_addr` values of R29 (DESIGN CHOICE, safe: log 6). -/
  asked : List Nat
  /-- What was fetched. -/
  instr : Except Cause Instr
  deriving Repr

/-- The cause a decoding error has (R152, R153). -/
def decodeCause : DecodeError → Cause
  | .truncated => .programCounterOutOfRange
  | .illegalOpcode _ => .illegalInstruction
  | .illegalCondition _ => .illegalInstruction

/-- The offsets of an instruction's bytes (R50). -/
def instrOffsets (p w : Nat) : List Nat := List.range' p w

/-- The decoder on the bytes at some offsets. -/
def decodeAt (s : State) (offsets : List Nat) : Except Cause Instr :=
  match decode (offsets.map (fetchByte s)) with
  | .ok (i, _) => .ok i
  | .error e => .error (decodeCause e)

/-- The step's checks in the order of R71 (UNVERIFIED, unsafe: log 9): fetch bound (R72), opcode (R73), whole-instruction bound (R74),
condition tag (R75). The register fields (R76) are checked last, by the operand forms of Machine/Operands.lean (log 22). The
comparisons with `CODE_SIZE` are on natural numbers and do not wrap (R71). -/
def fetchInstr (s : State) : Fetch :=
  let p := s.pc.toNat
  if s.codeSize ≤ p then { asked := [], instr := .error .programCounterOutOfRange }
  else
    match opcodeOf (fetchByte s p) with
    | none => { asked := [p], instr := .error .illegalInstruction }
    | some op =>
      if s.codeSize < p + opcodeLen op then { asked := [p], instr := .error .programCounterOutOfRange }
      else { asked := instrOffsets p (opcodeLen op), instr := decodeAt s (instrOffsets p (opcodeLen op)) }

/-- Bytes placed in the code memory at the pc, as a host would load them before the run: the code memory grows where it is too
short, never past 2^32 bytes (R21), and the run status is `Running` (DESIGN CHOICE, safe: log 5). -/
def placeAtPc (bytes : List Byte) (s : State) : State :=
  let fits := bytes.take (Config.maxCodeSize - s.pc.toNat)
  { s with
    codeSize := max s.codeSize (s.pc.toNat + fits.length)
    code := Memory.writeBytes s.code s.pc.toNat fits
    status := .running }

end Sys2Proof.Machine
end

