-- ==== Sys2Proof/Machine/Step.lean ====
section
/-! DEFINITION. One step of the dispatch controller. -/

namespace Sys2Proof.Machine

/-- `Step(s)` (R70, R71): taken only while the run status is `Running`. A run that has ended takes no step (R27, R83; DESIGN CHOICE,
safe: log 1). -/
def step (s : State) : Host.Outcome State Fault Refusal :=
  if s.status = .running then
    match (fetchInstr s).instr with
    | .ok i => exec i s
    | .error k => .next (raise k s)
  else .fault (.runEnded s.status)

/-- The state with an instruction, given as the opcode table's number, stored where the next step fetches it. -/
def State.withFetchWord (s : State) (nbits w : Nat) : State := placeAtPc (tableBytes nbits w) s

end Sys2Proof.Machine
end

