-- ==== Sys2Proof/Machine/Outputs.lean ====
section
/-! DEFINITION. The outputs of the block's interface (10_state.md R29), views of the state. -/

namespace Sys2Proof.Machine

/-- The `status` output's 3-bit code (R166; UNVERIFIED, safe: log 19). -/
def statusCode : Status → BitVec 3
  | .running => 0
  | .halted => 1
  | .illegalInstruction _ => 2
  | .programCounterOutOfRange _ => 3
  | .registerIndexOutOfRange _ => 4

/-- `fault_pc`: the pc of the instruction that ended the run, valid when the status is a fault (R29, R150). -/
def faultPc (s : State) : Option Word :=
  match s.status with
  | .running => none
  | .halted => none
  | .illegalInstruction pc => some pc
  | .programCounterOutOfRange pc => some pc
  | .registerIndexOutOfRange pc => some pc

/-- `result`: `x[0]`, valid only when the status is `Halted` (R29, R155, R184). -/
def result (s : State) : Option Word :=
  match s.status with
  | .halted => some (readReg 0 s)
  | .running => none
  | .illegalInstruction _ => none
  | .programCounterOutOfRange _ => none
  | .registerIndexOutOfRange _ => none

/-- `code_addr`: the code offsets the step from this state asks for (R29, R44), none once the run has ended. -/
def codeAddrs (s : State) : List Nat :=
  if s.status = .running then (fetchInstr s).asked else []

end Sys2Proof.Machine
end

