-- ==== Sys2Proof/Machine/Start.lean ====
section
/-! DEFINITION. The start of a run from the host's inputs (70_reset_and_hazards.md R180, R182). -/

namespace Sys2Proof.Machine

/-- What the host supplies before a run (R7, R29, R182). -/
structure HostInputs where
  /-- `CODE`, whose length is `CODE_SIZE` (R21). -/
  code : List Byte
  /-- `DATA_INIT`, or nothing for 256 zero bytes (R26). -/
  dataInit : Option (Vector Byte 256)
  /-- `R0_INIT`, any 32-bit value (R23, R183). -/
  r0Init : Word
  deriving DecidableEq, Repr

/-- `CODE_SIZE` is at most 2^32 (R7, R21). -/
abbrev HostInputs.wf (h : HostInputs) : Prop := h.code.length ≤ Config.maxCodeSize

/-- The byte of `DATA_INIT` at an offset, zero where the host supplies none (R26). -/
def initialDataByte (h : HostInputs) (k : Nat) : Byte :=
  match h.dataInit with
  | some v => (v.toList)[k]?.getD 0
  | none => 0

/-- The data memory at the start of a run (R26). -/
def initialData (h : HostInputs) : Memory :=
  match h.dataInit with
  | some v => Memory.ofBytes 0 v.toList
  | none => Memory.ofBytes 0 []

/-- The state `start` sets: every piece of it at its start value, nothing kept from an earlier run (R23 to R27, R180). -/
def State.start (h : HostInputs) : State where
  regs := (Vector.replicate 16 0).set 0 h.r0Init
  flags := ⟨false, false, false⟩
  pc := 0
  codeSize := h.code.length
  code := Memory.ofBytes 0 h.code
  data := initialData h
  status := .running

end Sys2Proof.Machine
end

