-- ==== Sys2Proof/WellFormed.lean ====
section
/-! DEFINITION. Which instructions name only registers that exist (R54, R76). Every immediate and every displacement is legal (R64). -/

namespace Sys2Proof

/-- A register-operand byte names a register iff it is below 16 (R14, R54). -/
def regByteOk (b : Byte) : Bool := b.toNat < Config.nReg

/-- The register fields R76 checks: both bytes of `S`, `L`, `A`, `U` and `M`, the first byte of `I`, none of the others. -/
def Instr.wellFormed : Instr → Bool
  | .store ptr val => regByteOk ptr && regByteOk val
  | .load ptr dst => regByteOk ptr && regByteOk dst
  | .add dst src => regByteOk dst && regByteOk src
  | .sub dst src => regByteOk dst && regByteOk src
  | .movr dst src => regByteOk dst && regByteOk src
  | .movi dst _ => regByteOk dst
  | .be _ => true
  | .bn _ => true
  | .bl _ => true
  | .halt => true

end Sys2Proof
end

