-- ==== Sys2Proof/Safety.lean ====
section
/-! DEFINITION. The terms the statements use: the invariant of a state, and where instruction bytes stand. -/

namespace Sys2Proof.Machine

/-- The flag combinations the flag engine can produce: a zero intermediate has no sign and no overflow (R101 to R103, R108). -/
abbrev Flags.consistent (f : Flags) : Prop := f.z = true → f.n = false ∧ f.o = false

/-- A fault outcome records the pc, which the fault leaves unchanged (R150, R155). -/
abbrev statusNamesPc (s : State) : Prop := ∀ pc, faultPc s = some pc → pc = s.pc

/-- What every state of a run keeps: the code memory within `CODE_SIZE` and that within 2^32 (R21), the data memory within its 256
bytes (R22), both in canonical form, the flags consistent, a fault outcome naming the pc. -/
structure State.Inv (s : State) : Prop where
  codeSize_le : s.codeSize ≤ Config.maxCodeSize
  code_wf : Memory.wf s.code
  code_below : Memory.below s.code s.codeSize
  data_wf : Memory.wf s.data
  data_below : Memory.below s.data Config.dataSize
  flags_consistent : s.flags.consistent
  status_pc : statusNamesPc s

/-- A running state whose pc is at the given bytes, all of them inside the code memory. -/
abbrev placedAt (s : State) (bytes : List Byte) : Prop :=
  s.status = .running ∧ s.pc.toNat + bytes.length ≤ s.codeSize ∧
    Memory.readBytes s.code s.pc.toNat bytes.length = bytes

/-- A running state whose pc is outside the code memory, or at the given opcode byte with fewer than `width` bytes of the code
memory left (R72, R74). -/
abbrev cutShort (s : State) (op : Byte) (width : Nat) : Prop :=
  s.status = .running ∧
    (s.codeSize ≤ s.pc.toNat ∨
      s.pc.toNat < s.codeSize ∧ fetchByte s s.pc.toNat = op ∧ s.codeSize < s.pc.toNat + width)

/-- A register-operand byte that names no register (R54). -/
abbrev namesNoReg (b : Byte) : Prop := 16 ≤ b.toNat

/-- Every register but `d` reads the same in both states. -/
abbrev otherRegsSame (d : RegIdx) (s t : State) : Prop := ∀ i, i ≠ d → readReg i t = readReg i s

/-- Every byte of the code memory, and its size, read the same in both states (R21, R42). -/
abbrev codeSame (s t : State) : Prop := t.codeSize = s.codeSize ∧ ∀ a, fetchByte t a = fetchByte s a

/-- Every byte of the data memory reads the same in both states. -/
abbrev dataSame (s t : State) : Prop := ∀ k, loadByte k t = loadByte k s

/-- Nothing but the pc and what a register holds can differ: flags, both memories and the run status are the same. -/
abbrev sameButRegs (s t : State) : Prop :=
  t.flags = s.flags ∧ dataSame s t ∧ codeSame s t ∧ t.status = s.status

/-- `signed32` of a number below 2^32 (R8). -/
def signed32 (n : Nat) : Int := if n < 2 ^ 31 then (n : Int) else (n : Int) - 2 ^ 32

/-- The eight opcode bytes (R59). -/
def opcodeBytes : List Byte := [0x53, 0x4C, 0x41, 0x55, 0x4D, 0x49, 0x42, 0x48]

/-- The opcode bytes of the 3-byte instructions (R60). -/
def threeByteOpcodes : List Byte := [0x41, 0x49, 0x4C, 0x4D, 0x53, 0x55]

/-- The opcode bytes with two register fields (R76). -/
def twoRegisterOpcodes : List Byte := [0x53, 0x4C, 0x41, 0x55, 0x4D]

/-- The three condition bytes (R57). -/
def conditionBytes : List Byte := [0x45, 0x4E, 0x4C]

/-- The first check of R71 that fails, written as the spec writes the step, over the code bytes alone. -/
def firstFailedCheck (s : State) : Option Cause :=
  let p := s.pc.toNat
  let op := fetchByte s p
  let b1 := fetchByte s (p + 1)
  let b2 := fetchByte s (p + 2)
  if p ≥ s.codeSize then some .programCounterOutOfRange
  else if op ∉ opcodeBytes then some .illegalInstruction
  else if p + (if op = 0x42 then 6 else if op = 0x48 then 1 else 3) > s.codeSize then some .programCounterOutOfRange
  else if op = 0x42 ∧ b1 ∉ conditionBytes then some .illegalInstruction
  else if op ∈ twoRegisterOpcodes ∧ (b1.toNat > 15 ∨ b2.toNat > 15) then some .registerIndexOutOfRange
  else if op = 0x49 ∧ b1.toNat > 15 then some .registerIndexOutOfRange
  else none

/-- The exceptions of an instruction with two register fields: the bounds of R72 and R74, and R76 for either field. Each changes
the run status alone (R155). -/
def raisesLikeTwoRegisters (op : Byte) : Prop :=
  ∀ s : State,
    (cutShort s op 3 → step s = .next { s with status := .programCounterOutOfRange s.pc }) ∧
    ∀ x y, placedAt s [op, x, y] → namesNoReg x ∨ namesNoReg y →
      step s = .next { s with status := .registerIndexOutOfRange s.pc }

/-- The step from this state is an `S` that stores register `v` at data offset `k`. -/
abbrev storesAt (s : State) (k : Nat) (v : RegIdx) : Prop :=
  ∃ p, placedAt s [0x53, regByte p, regByte v] ∧ dataOffset (readReg p s) = k

/-- `n` steps from a state, the host's run of the machine: a next state is where it stands after them, no outcome yet while its status
is `Running` (R84; log 21). -/
def runFor (n : Nat) (s : State) : Host.Outcome State Fault Refusal := Sys2Proof.core.run n s

end Sys2Proof.Machine
end

