-- ==== Sys2Proof/Certificates/Slice0/Obligations.lean ====
section
/-! DEFINITION. The statements for the provers. "log n" is `notes/assumptions/n.md`. -/

open Sys2Proof Sys2Proof.Machine

/-! ### Encoding -/

/-- Decoding an encoded instruction gives it back, every operand at every value its field admits (30_encoding.md sections 1 to 3). -/
def Obligations.DecodeOfEncodeIsTheInstruction : Prop :=
  ∀ (i : Instr) (rest : List Byte), decode (encode i ++ rest) = .ok (i, rest)

/-- The bytes the decoder consumes are the encoding of what it answers: one encoding per instruction (30_encoding.md sections 1 to 4). -/
def Obligations.EncodeOfDecodeIsTheBytes : Prop :=
  ∀ (bytes rest : List Byte) (i : Instr), decode bytes = .ok (i, rest) → bytes = encode i ++ rest

/-- R59, the opcode map, with the displacement of R56: every row, and every other byte illegal. -/
def Obligations.OpcodeMapDecodesEveryRow : Prop :=
  (∀ (a b : Byte) (rest : List Byte),
    decode (0x53 :: a :: b :: rest) = .ok (.store a b, rest) ∧
    decode (0x4C :: a :: b :: rest) = .ok (.load a b, rest) ∧
    decode (0x41 :: a :: b :: rest) = .ok (.add a b, rest) ∧
    decode (0x55 :: a :: b :: rest) = .ok (.sub a b, rest) ∧
    decode (0x4D :: a :: b :: rest) = .ok (.movr a b, rest) ∧
    decode (0x49 :: a :: b :: rest) = .ok (.movi a b, rest) ∧
    decode (0x48 :: rest) = .ok (.halt, rest)) ∧
  (∀ (d0 d1 d2 d3 : Byte) (rest : List Byte), ∃ disp : Word,
    disp.toInt = signed32 (d0.toNat + 256 * d1.toNat + 65536 * d2.toNat + 16777216 * d3.toNat) ∧
    decode (0x42 :: 0x45 :: d0 :: d1 :: d2 :: d3 :: rest) = .ok (.be disp, rest) ∧
    decode (0x42 :: 0x4E :: d0 :: d1 :: d2 :: d3 :: rest) = .ok (.bn disp, rest) ∧
    decode (0x42 :: 0x4C :: d0 :: d1 :: d2 :: d3 :: rest) = .ok (.bl disp, rest) ∧
    ∀ c, c ∉ conditionBytes → decode (0x42 :: c :: d0 :: d1 :: d2 :: d3 :: rest) = .error (.illegalCondition c)) ∧
  ∀ (op : Byte) (rest : List Byte), op ∉ opcodeBytes → decode (op :: rest) = .error (.illegalOpcode op)

/-- Words written out from the encodings of R51 to R53 and 95_test_vectors.md decode to their instructions. -/
def Obligations.SampleWordsDecode : Prop :=
  decode [0x53, 0x01, 0x02] = .ok (.store 1 2, []) ∧
  decode [0x41, 0x04, 0x02] = .ok (.add 4 2, []) ∧
  decode [0x49, 0x04, 0xFF] = .ok (.movi 4 0xFF, []) ∧
  decode [0x42, 0x4E, 0xE5, 0xFF, 0xFF, 0xFF] = .ok (.bn (BitVec.ofInt 32 (-27)), []) ∧
  decode [0x48] = .ok (.halt, [])

/-- R60 and R61: the length by the opcode byte, and none for the other 248 bytes. -/
def Obligations.OpcodeFixesTheLength : Prop :=
  (opcodeOf 0x42).map opcodeLen = some 6 ∧ (opcodeOf 0x48).map opcodeLen = some 1 ∧
  (∀ b ∈ threeByteOpcodes, (opcodeOf b).map opcodeLen = some 3) ∧
  ∀ b, b ∉ opcodeBytes → opcodeOf b = none

/-! ### The step and its checks -/

/-- Where the bytes at the pc, inside the code memory, are one whole instruction, a running step is `exec` of it. Nothing stands
around `exec`: each meaning moves the pc itself. -/
def Obligations.StepRunsTheDecodedInstruction : Prop :=
  ∀ (s : State) (n : Nat) (i : Instr), s.status = .running → s.pc.toNat + n ≤ s.codeSize →
    decode (Memory.readBytes s.code s.pc.toNat n) = .ok (i, []) → step s = exec i s

/-- R71 over the code bytes: the first failing check, in the spec's order, is the outcome raised, and a step that passes them all
executes the well-formed instruction whose encoding stands at the pc. The order is the spec's decision D3 (log 9). -/
def Obligations.StepFollowsTheCheckOrder : Prop :=
  ∀ s : State, s.status = .running →
    (∀ k, firstFailedCheck s = some k → step s = .next (raise k s)) ∧
    (firstFailedCheck s = none →
      ∃ i : Instr, i.wellFormed = true ∧ placedAt s (encode i) ∧ step s = exec i s)

/-- R62 and R73: an illegal opcode byte ends the run and changes nothing but the run status. -/
def Obligations.IllegalOpcodeEndsTheRun : Prop :=
  ∀ s : State, s.status = .running → s.pc.toNat < s.codeSize → fetchByte s s.pc.toNat ∉ opcodeBytes →
    step s = .next { s with status := .illegalInstruction s.pc }

/-- R63 and R75: a `B` with an illegal condition byte ends the run, whatever the flags are. -/
def Obligations.IllegalConditionEndsTheRun : Prop :=
  ∀ (s : State) (c d0 d1 d2 d3 : Byte), placedAt s [0x42, c, d0, d1, d2, d3] → c ∉ conditionBytes →
    ∀ f : Flags, step { s with flags := f } = .next { s with flags := f, status := .illegalInstruction s.pc }

/-- R152: `IllegalInstruction` has exactly its two causes, and records the pc. -/
def Obligations.IllegalInstructionHasTwoCauses : Prop :=
  ∀ s : State, s.status = .running → ∃ t, step s = .next t ∧ ∀ p,
    (t.status = .illegalInstruction p ↔ p = s.pc ∧
      ((s.pc.toNat < s.codeSize ∧ fetchByte s s.pc.toNat ∉ opcodeBytes) ∨
       (s.pc.toNat + 6 ≤ s.codeSize ∧ fetchByte s s.pc.toNat = 0x42 ∧
          fetchByte s (s.pc.toNat + 1) ∉ conditionBytes)))

/-- `ProgramCounterOutOfRange` has exactly its two causes (60_exceptions.md section 2). That there is such an outcome in every
strategy, and where it is checked, is the spec's decision D2 (log 8). -/
def Obligations.ProgramCounterOutOfRangeHasTwoCauses : Prop :=
  ∀ s : State, s.status = .running → ∃ t, step s = .next t ∧ ∀ p,
    (t.status = .programCounterOutOfRange p ↔ p = s.pc ∧
      (s.codeSize ≤ s.pc.toNat ∨
       (s.pc.toNat < s.codeSize ∧ fetchByte s s.pc.toNat ∈ threeByteOpcodes ∧ s.codeSize < s.pc.toNat + 3) ∨
       (s.pc.toNat < s.codeSize ∧ fetchByte s s.pc.toNat = 0x42 ∧ s.codeSize < s.pc.toNat + 6)))

/-- `RegisterIndexOutOfRange` has exactly one cause (60_exceptions.md section 2). The outcome is the spec's decision D4 (log 10). -/
def Obligations.RegisterIndexOutOfRangeHasOneCause : Prop :=
  ∀ s : State, s.status = .running → ∃ t, step s = .next t ∧ ∀ p,
    (t.status = .registerIndexOutOfRange p ↔ p = s.pc ∧ s.pc.toNat + 3 ≤ s.codeSize ∧
      ((fetchByte s s.pc.toNat ∈ twoRegisterOpcodes ∧
          (namesNoReg (fetchByte s (s.pc.toNat + 1)) ∨ namesNoReg (fetchByte s (s.pc.toNat + 2)))) ∨
       (fetchByte s s.pc.toNat = 0x49 ∧ namesNoReg (fetchByte s (s.pc.toNat + 1)))))

/-- Only `H` halts a run, wherever in the code it stands, its last byte included (44_control.md section 1). -/
def Obligations.OnlyHaltHaltsTheRun : Prop :=
  ∀ s : State, s.status = .running → ∃ t, step s = .next t ∧
    (t.status = .halted ↔ s.pc.toNat < s.codeSize ∧ fetchByte s s.pc.toNat = 0x48)

/-- A step answers a next state exactly while the run status is `Running` (10_state.md section 7). That a step asked of an ended run
is the fault `runEnded` is the model's DESIGN CHOICE (log 1). -/
def Obligations.StepAnswersExactlyWhileRunning : Prop :=
  ∀ s : State, ((∃ t, step s = .next t) ↔ s.status = .running) ∧
    (s.status ≠ .running → step s = .fault (.runEnded s.status))

/-- A step is atomic: one that ends the run, by a fault outcome or by `H`, changes nothing but the run status, and a fault outcome
names the pc (40_dispatch_cycle.md section 1, 60_exceptions.md section 2; decision D17). -/
def Obligations.EndOfRunChangesOnlyTheStatus : Prop :=
  ∀ s t : State, step s = .next t → t.status ≠ .running →
    t = { s with status := t.status } ∧ ∀ p, faultPc t = some p → p = s.pc

/-- An instruction whose register fields name registers completes and raises nothing, and one with a field that names none raises
`RegisterIndexOutOfRange` alone (decision D4, log 10; that `exec` makes this check is the model's DESIGN CHOICE, log 22). -/
def Obligations.WellFormedInstructionsComplete : Prop :=
  ∀ (i : Instr) (s : State),
    (i.wellFormed = true → ∃ t, exec i s = .next t ∧ (t.status = s.status ∨ i = .halt ∧ t.status = .halted)) ∧
    (i.wellFormed = false → exec i s = .next { s with status := .registerIndexOutOfRange s.pc })

/-! ### The instructions -/

/-- R91, `S`: one byte stored at the offset of the pointer register, nothing else but the pc.The outcome clauses
are R72, R74 and R76, the spec's decisions D2 and D4 (log 8, log 10). -/
def Obligations.StoreWritesOneByte : Prop :=
  (∀ (s : State) (p v : RegIdx),
    (∃ t, exec (.store (regByte p) (regByte v)) s = .next t ∧
      (loadByte (dataOffset (readReg p s)) t).toNat = (readReg v s).toNat % 256 ∧
      (∀ k, k ≠ dataOffset (readReg p s) → loadByte k t = loadByte k s) ∧
      (∀ i, readReg i t = readReg i s) ∧ t.flags = s.flags ∧ t.pc = s.pc + 3 ∧
      codeSame s t ∧ t.status = s.status) ∧
    (placedAt s [0x53, regByte p, regByte v] → step s = exec (.store (regByte p) (regByte v)) s)) ∧
  raisesLikeTwoRegisters 0x53

/-- R92, `L`: the byte at the offset of the pointer register's old value, zero-extended into the destination.The outcome clauses
are R72, R74 and R76, the spec's decisions D2 and D4 (log 8, log 10). -/
def Obligations.LoadReadsOneByte : Prop :=
  (∀ (s : State) (p d : RegIdx),
    (∃ t, exec (.load (regByte p) (regByte d)) s = .next t ∧
      (readReg d t).toNat = (loadByte (dataOffset (readReg p s)) s).toNat ∧
      otherRegsSame d s t ∧ sameButRegs s t ∧ t.pc = s.pc + 3) ∧
    (placedAt s [0x4C, regByte p, regByte d] → step s = exec (.load (regByte p) (regByte d)) s)) ∧
  raisesLikeTwoRegisters 0x4C

/-- R105, `A`: the sum modulo 2^32 and the three flags of the exact sum.The outcome clauses
are R72, R74 and R76, the spec's decisions D2 and D4 (log 8, log 10). -/
def Obligations.AddWritesSumAndFlags : Prop :=
  (∀ (s : State) (d r : RegIdx),
    (∃ t, exec (.add (regByte d) (regByte r)) s = .next t ∧
      (readReg d t).toNat = ((readReg d s).toNat + (readReg r s).toNat) % 2 ^ 32 ∧
      t.flags.z = decide ((readReg d s).toNat + (readReg r s).toNat = 0) ∧
      t.flags.n = (((readReg d s).toNat + (readReg r s).toNat) % 2 ^ 32).testBit 31 ∧
      t.flags.o = decide (2 ^ 32 ≤ (readReg d s).toNat + (readReg r s).toNat) ∧
      otherRegsSame d s t ∧ dataSame s t ∧ codeSame s t ∧ t.status = s.status ∧ t.pc = s.pc + 3) ∧
    (placedAt s [0x41, regByte d, regByte r] → step s = exec (.add (regByte d) (regByte r)) s)) ∧
  raisesLikeTwoRegisters 0x41

/-- R106, `U`: the difference modulo 2^32 and the three flags of the exact difference.The outcome clauses
are R72, R74 and R76, the spec's decisions D2 and D4 (log 8, log 10). -/
def Obligations.SubWritesDifferenceAndFlags : Prop :=
  (∀ (s : State) (d r : RegIdx),
    (∃ t, exec (.sub (regByte d) (regByte r)) s = .next t ∧
      ((readReg d t).toNat : Int) = (((readReg d s).toNat : Int) - ((readReg r s).toNat : Int)) % 2 ^ 32 ∧
      t.flags.z = decide (((readReg d s).toNat : Int) - ((readReg r s).toNat : Int) = 0) ∧
      t.flags.n = ((((readReg d s).toNat : Int) - ((readReg r s).toNat : Int)) % 2 ^ 32).toNat.testBit 31 ∧
      t.flags.o = decide (((readReg d s).toNat : Int) - ((readReg r s).toNat : Int) < 0) ∧
      otherRegsSame d s t ∧ dataSame s t ∧ codeSame s t ∧ t.status = s.status ∧ t.pc = s.pc + 3) ∧
    (placedAt s [0x55, regByte d, regByte r] → step s = exec (.sub (regByte d) (regByte r)) s)) ∧
  raisesLikeTwoRegisters 0x55

/-- R120, `M`: the whole register copied, flags unchanged.The outcome clauses
are R72, R74 and R76, the spec's decisions D2 and D4 (log 8, log 10). -/
def Obligations.MoveRegisterCopies : Prop :=
  (∀ (s : State) (d r : RegIdx),
    (∃ t, exec (.movr (regByte d) (regByte r)) s = .next t ∧ readReg d t = readReg r s ∧
      otherRegsSame d s t ∧ sameButRegs s t ∧ t.pc = s.pc + 3) ∧
    (placedAt s [0x4D, regByte d, regByte r] → step s = exec (.movr (regByte d) (regByte r)) s)) ∧
  raisesLikeTwoRegisters 0x4D

/-- R121, `I`: the immediate byte zero-extended, any byte legal, flags unchanged.The outcome clauses are R72,
R74 and R76, the spec's decisions D2 and D4 (log 8, log 10). -/
def Obligations.MoveImmediateZeroExtends : Prop :=
  ∀ s : State,
    (∀ (d : RegIdx) (imm8 : Byte),
      (∃ t, exec (.movi (regByte d) imm8) s = .next t ∧ (readReg d t).toNat = imm8.toNat ∧
        otherRegsSame d s t ∧ sameButRegs s t ∧ t.pc = s.pc + 3) ∧
      (placedAt s [0x49, regByte d, imm8] → step s = exec (.movi (regByte d) imm8) s)) ∧
    (cutShort s 0x49 3 → step s = .next { s with status := .programCounterOutOfRange s.pc }) ∧
    ∀ x imm8, placedAt s [0x49, x, imm8] → namesNoReg x →
      step s = .next { s with status := .registerIndexOutOfRange s.pc }

/-- R131, `BE`: taken iff `Z`. The taken target's base 6 is the spec's decision D1 (log 7). -/
def Obligations.BranchIfEqualFollowsZero : Prop :=
  ∀ (s : State) (disp : Word),
    exec (.be disp) s = .next { s with
      pc := if s.flags.z = true then BitVec.ofInt 32 ((s.pc.toNat : Int) + 6 + disp.toInt) else s.pc + 6 } ∧
    (placedAt s [0x42, 0x45, wordByte disp 0, wordByte disp 1, wordByte disp 2, wordByte disp 3] →
      step s = exec (.be disp) s) ∧
    (cutShort s 0x42 6 → step s = .next { s with status := .programCounterOutOfRange s.pc })

/-- R132, `BN`: taken iff not `Z`. The taken target's base 6 is the spec's decision D1 (log 7). -/
def Obligations.BranchIfNotEqualFollowsZero : Prop :=
  ∀ (s : State) (disp : Word),
    exec (.bn disp) s = .next { s with
      pc := if s.flags.z = false then BitVec.ofInt 32 ((s.pc.toNat : Int) + 6 + disp.toInt) else s.pc + 6 } ∧
    (placedAt s [0x42, 0x4E, wordByte disp 0, wordByte disp 1, wordByte disp 2, wordByte disp 3] →
      step s = exec (.bn disp) s) ∧
    (cutShort s 0x42 6 → step s = .next { s with status := .programCounterOutOfRange s.pc })

/-- R133, `BL`: taken iff `N` xor `O`, whatever `Z` is. The taken target's base 6 is the spec's decision D1 (log 7). -/
def Obligations.BranchIfLessFollowsNegativeXorOverflow : Prop :=
  ∀ (s : State) (disp : Word),
    exec (.bl disp) s = .next { s with
      pc := if xor s.flags.n s.flags.o = true then BitVec.ofInt 32 ((s.pc.toNat : Int) + 6 + disp.toInt)
            else s.pc + 6 } ∧
    (placedAt s [0x42, 0x4C, wordByte disp 0, wordByte disp 1, wordByte disp 2, wordByte disp 3] →
      step s = exec (.bl disp) s) ∧
    (cutShort s 0x42 6 → step s = .next { s with status := .programCounterOutOfRange s.pc })

/-- R135: a branch whose condition fails goes to the next instruction in sequence. -/
def Obligations.UntakenBranchAdvancesBySix : Prop :=
  ∀ (s : State) (disp : Word),
    (s.flags.z = false → exec (.be disp) s = .next { s with pc := BitVec.ofNat 32 (s.pc.toNat + 6) }) ∧
    (s.flags.z = true → exec (.bn disp) s = .next { s with pc := BitVec.ofNat 32 (s.pc.toNat + 6) }) ∧
    (s.flags.n = s.flags.o → exec (.bl disp) s = .next { s with pc := BitVec.ofNat 32 (s.pc.toNat + 6) })

/-- `H`: the run status becomes `Halted` and nothing else changes, the pc included (44_control.md section 1; decision D9, log 14). -/
def Obligations.HaltStopsTheRun : Prop :=
  ∀ s : State,
    exec .halt s = .next { s with status := .halted } ∧
    (placedAt s [0x48] → step s = .next { s with status := .halted })

/-! ### The flag engine -/

/-- R100 to R103: the intermediates of `A` and `U` are the exact integers. Zero is a zero intermediate, Negative its bit 31, Overflow
a bit above bit 31, with what R101 and R103 say each is for a sum and for a difference. -/
def Obligations.FlagEngineOnTheIntermediate : Prop :=
  (∀ w : Wide,
    (computeFlags w).z = decide (w.toInt = 0) ∧
    (computeFlags w).n = (trunc32 w).getLsbD 31 ∧
    ((computeFlags w).o = true ↔ ∃ k, 32 ≤ k ∧ k < 64 ∧ w.getLsbD k = true) ∧
    ((computeFlags w).o = true ↔ w.toInt < 0 ∨ 2 ^ 32 ≤ w.toInt)) ∧
  ∀ a b : Word,
    (addWide a b).toInt = (a.toNat : Int) + (b.toNat : Int) ∧
    (subWide a b).toInt = (a.toNat : Int) - (b.toNat : Int) ∧
    (computeFlags (addWide a b)).o = decide (2 ^ 32 ≤ a.toNat + b.toNat) ∧
    (computeFlags (subWide a b)).o = decide (a.toNat < b.toNat) ∧
    (computeFlags (subWide a b)).z = decide (trunc32 (subWide a b) = 0) ∧
    (a.toNat + b.toNat = 2 ^ 32 → trunc32 (addWide a b) = 0 ∧ (computeFlags (addWide a b)).z = false) ∧
    (a.toNat + b.toNat ≠ 2 ^ 32 → (computeFlags (addWide a b)).z = decide (trunc32 (addWide a b) = 0))

/-- R104: `A` and `U` replace all three flags by `ComputeFlags` of their intermediate, so no earlier flag survives, and no other
instruction writes one. -/
def Obligations.ArithmeticReplacesAllFlags : Prop :=
  (∀ w : Wide, computeFlags w =
    { z := decide (w.toInt = 0)
      n := (w.toInt % 2 ^ 32).toNat.testBit 31
      o := decide (w.toInt < 0 ∨ 2 ^ 32 ≤ w.toInt) }) ∧
  (∀ (d r : RegIdx) (s : State) (f : Flags), ∃ t u,
    exec (.add (regByte d) (regByte r)) s = .next t ∧ exec (.add (regByte d) (regByte r)) (setFlags f s) = .next t ∧
    t.flags = computeFlags (addWide (readReg d s) (readReg r s)) ∧
    exec (.sub (regByte d) (regByte r)) s = .next u ∧ exec (.sub (regByte d) (regByte r)) (setFlags f s) = .next u ∧
    u.flags = computeFlags (subWide (readReg d s) (readReg r s))) ∧
  ∀ (i : Instr) (s t : State), exec i s = .next t → (∀ a b, i ≠ .add a b) → (∀ a b, i ≠ .sub a b) → t.flags = s.flags

/-- R18: only `A` and `U` write the flags, only the branches read them, `BE` and `BN` read `Z` alone and `BL` reads `N` and `O` alone. -/
def Obligations.FlagWritersAndReaders : Prop :=
  (∀ (i : Instr) (s t : State) (f : Flags), exec i s = .next t →
    (∀ a b, i ≠ .add a b) → (∀ a b, i ≠ .sub a b) →
    t.flags = s.flags ∧
    ((∀ disp, i ≠ .be disp) → (∀ disp, i ≠ .bn disp) → (∀ disp, i ≠ .bl disp) →
      exec i (setFlags f s) = .next (setFlags f t))) ∧
  (∀ (d r : RegIdx) (s : State) (f : Flags),
    exec (.add (regByte d) (regByte r)) (setFlags f s) = exec (.add (regByte d) (regByte r)) s ∧
    exec (.sub (regByte d) (regByte r)) (setFlags f s) = exec (.sub (regByte d) (regByte r)) s) ∧
  ∀ (s : State) (disp : Word) (f : Flags),
    (f.z = s.flags.z → ∀ t, exec (.be disp) s = .next t → exec (.be disp) (setFlags f s) = .next (setFlags f t)) ∧
    (f.z = s.flags.z → ∀ t, exec (.bn disp) s = .next t → exec (.bn disp) (setFlags f s) = .next (setFlags f t)) ∧
    (f.n = s.flags.n → f.o = s.flags.o → ∀ t, exec (.bl disp) s = .next t →
      exec (.bl disp) (setFlags f s) = .next (setFlags f t))

/-- The consequences the spec derives from the flag rules (42_arithmetic.md section 3, its R108, an inference the spec marks as its
own): after `A` or `U`, a set `Z` means clear `N` and `O`, `O` is the carry or borrow, and `BL` is not taken after a `U` of two
operands below 2^31. -/
def Obligations.FlagConsequences : Prop :=
  ∀ (d r : RegIdx) (s : State), ∃ t u,
    exec (.add (regByte d) (regByte r)) s = .next t ∧ exec (.sub (regByte d) (regByte r)) s = .next u ∧
    (t.flags.z = true → t.flags.n = false ∧ t.flags.o = false) ∧
    (u.flags.z = true → u.flags.n = false ∧ u.flags.o = false) ∧
    (t.flags.o = true ↔ (readReg d t).toNat < (readReg r s).toNat) ∧
    (u.flags.o = true ↔ (readReg d s).toNat < (readReg r s).toNat) ∧
    ((readReg d s).toNat < 2 ^ 31 → (readReg r s).toNat < 2 ^ 31 →
      u.flags.n = u.flags.o ∧ ∀ disp, exec (.bl disp) u = .next { u with pc := u.pc + 6 })

/-! ### Data memory -/

/-- The effective address is the pointer's low byte read signed, the offset that address modulo 256, so bits 31 to 8 of the pointer
are ignored and each of the 256 data bytes is reached (20_memory.md section 2; the mapping is the spec's decision D5, log 11). -/
def Obligations.EffectiveAddressIsTheSignedLowByte : Prop :=
  (∀ p : Word, -128 ≤ effectiveAddress p ∧ effectiveAddress p ≤ 127 ∧
    effectiveAddress p = (if p.toNat % 256 < 128 then ((p.toNat % 256 : Nat) : Int) else ((p.toNat % 256 : Nat) : Int) - 256) ∧
    dataOffset p = p.toNat % 256 ∧ (dataOffset p : Int) = effectiveAddress p % 256) ∧
  ∀ k, k < 256 → ∃ p : Word, dataOffset p = k

/-- R93: a store, then any states that leave its byte alone, then a load through a pointer of the same low byte. -/
def Obligations.StoreThenLoadRoundTrip : Prop :=
  ∀ (s : State) (p v : RegIdx), ∃ s1, exec (.store (regByte p) (regByte v)) s = .next s1 ∧
    ∀ (u : State) (q d : RegIdx),
      loadByte (dataOffset (readReg p s)) u = loadByte (dataOffset (readReg p s)) s1 →
      (readReg q u).toNat % 256 = (readReg p s).toNat % 256 →
      ∃ t, exec (.load (regByte q) (regByte d)) u = .next t ∧ (readReg d t).toNat = (readReg v s).toNat % 256

/-- R39: along every run from the host's inputs, a data byte holds what the most recent `S` to it stored, or its `DATA_INIT` byte
where none has, and an `L` of it loads that byte. -/
def Obligations.LoadReturnsTheMostRecentStore : Prop :=
  ∀ (h : HostInputs) (n : Nat) (t : State) (k : Nat), k < 256 → runFor n (State.start h) = .next t →
    ((∀ (m : Nat) (u : State) (v : RegIdx), m < n → runFor m (State.start h) = .next u → ¬ storesAt u k v) →
      loadByte k t = initialDataByte h k) ∧
    (∀ (m : Nat) (u : State) (v : RegIdx), m < n → runFor m (State.start h) = .next u → storesAt u k v →
      (∀ (j : Nat) (w : State) (x : RegIdx), m < j → j < n → runFor j (State.start h) = .next w → ¬ storesAt w k x) →
      loadByte k t = lowByte (readReg v u)) ∧
    ∀ p d : RegIdx, placedAt t [0x4C, regByte p, regByte d] → dataOffset (readReg p t) = k →
      ∃ t', step t = .next t' ∧ (readReg d t').toNat = (loadByte k t).toNat

/-! ### Runs -/

/-- R42: whatever a run executes, every later fetch sees the code bytes the run began with, and the code size it began with. -/
def Obligations.CodeMemoryNeverChanges : Prop :=
  ∀ (n : Nat) (s t : State), runFor n s = .next t → codeSame s t

/-- Every step keeps the invariant: both memories canonical and within their sizes, the flags a combination the flag engine can
give, a fault outcome naming the pc. -/
def Obligations.EveryStepKeepsTheInvariant : Prop :=
  ∀ s t : State, s.Inv → step s = .next t → t.Inv

/-- The reset state meets the invariant. -/
def Obligations.ResetMeetsTheInvariant : Prop := State.reset.Inv

/-- Every start of a run, with at most 2^32 code bytes, meets the invariant. -/
def Obligations.StartMeetsTheInvariant : Prop := ∀ h : HostInputs, h.wf → (State.start h).Inv

/-- R23, R24 and R25: the registers, flags and pc at the start of a run. -/
def Obligations.StartSetsRegistersFlagsAndPc : Prop :=
  ∀ h : HostInputs, readReg 0 (State.start h) = h.r0Init ∧ (∀ i : RegIdx, i ≠ 0 → readReg i (State.start h) = 0) ∧
    (State.start h).flags = { z := false, n := false, o := false } ∧ (State.start h).pc = 0

/-- The memories and the run status at the start of a run: the code the host supplies, `DATA_INIT` or 256 zero bytes, `Running`
(10_state.md sections 6 and 7; the default and the parameters are the spec's decisions D6 and D11, log 4, log 23). -/
def Obligations.StartSetsTheMemories : Prop :=
  ∀ h : HostInputs,
    (State.start h).codeSize = h.code.length ∧
    (∀ a (ha : a < h.code.length), fetchByte (State.start h) a = h.code[a]) ∧
    (∀ v, h.dataInit = some v → ∀ k (hk : k < 256), loadByte k (State.start h) = v[k]) ∧
    (h.dataInit = none → ∀ k, k < 256 → loadByte k (State.start h) = 0) ∧
    (State.start h).status = .running

/-- The reset state is the start of a run whose host supplies no code, no `DATA_INIT` and the input 0. Those inputs are the model's
DESIGN CHOICES (log 2, log 3, log 4). -/
def Obligations.ResetIsAStart : Prop :=
  State.reset = State.start { code := [], dataInit := none, r0Init := 0 }

/-- A taken branch, `BE`, `BN` or `BL`, to an offset outside the code raises nothing itself: the next step ends the run with the target as the pc, and a
target below 0 wraps to 2^31 + 6 or more (44_control.md section 1, its R136, an inference the spec marks as its own; decisions D1, D2
and D8, log 7, log 8, log 13). -/
def Obligations.OutOfRangeTargetFaultsAtTheNextStep : Prop :=
  ∀ (s : State) (c : Byte) (disp : Word),
    placedAt s [0x42, c, wordByte disp 0, wordByte disp 1, wordByte disp 2, wordByte disp 3] →
    (c = 0x45 ∧ s.flags.z = true ∨ c = 0x4E ∧ s.flags.z = false ∨ c = 0x4C ∧ s.flags.n ≠ s.flags.o) →
    ∃ t, step s = .next t ∧ t.status = .running ∧
      (s.codeSize ≤ t.pc.toNat → step t = .next { t with status := .programCounterOutOfRange t.pc }) ∧
      ((s.pc.toNat : Int) + 6 + disp.toInt < 0 →
        2 ^ 31 + 6 ≤ t.pc.toNat ∧
        (s.codeSize ≤ 2 ^ 31 - 6 → step t = .next { t with status := .programCounterOutOfRange t.pc }))

/-- A taken branch with displacement -6 targets itself and the run has no outcome: after any number of steps it is where it was
(44_control.md section 1 and 40_dispatch_cycle.md section 3; decisions D1 and D20, log 7, log 21). -/
def Obligations.BranchToItselfNeverEnds : Prop :=
  ∀ (s : State) (c : Byte), placedAt s [0x42, c, 0xFA, 0xFF, 0xFF, 0xFF] →
    (c = 0x45 ∧ s.flags.z = true ∨ c = 0x4E ∧ s.flags.z = false ∨ c = 0x4C ∧ s.flags.n ≠ s.flags.o) →
    ∀ n, runFor n s = .next s

/-! ### The block's interface -/

/-- A result after `Halted`, the `x[0]` of the state that halted, and none in any state that has not halted: none after a fault
outcome (R184's section) and none while the run goes on. That last clause rests on the interface's "valid only when
`status = Halted`" and on a run without an outcome that "delivers no result", the spec's decisions D12 and D20 (log 19, log 21). -/
def Obligations.ResultOnlyAfterHalt : Prop :=
  (∀ s : State, s.status = .halted → result s = some (readReg 0 s)) ∧
  (∀ s : State, result s = none ↔ s.status ≠ .halted) ∧
  (∀ (s : State) (p : Word), faultPc s = some p → result s = none) ∧
  ∀ s : State, placedAt s [0x48] → ∃ t, step s = .next t ∧ result t = some (readReg 0 s)

/-- The status output's codes, and that 5 to 7 are never driven (60_exceptions.md section 5; the spec's decision D23, log 19). -/
def Obligations.StatusOutputCodes : Prop :=
  statusCode .running = 0 ∧ statusCode .halted = 1 ∧
  (∀ p, statusCode (.illegalInstruction p) = 2 ∧ statusCode (.programCounterOutOfRange p) = 3 ∧
    statusCode (.registerIndexOutOfRange p) = 4) ∧
  ∀ st, (statusCode st).toNat < 5

/-- The code port is asked only for offsets inside the code memory and inside the instruction (20_memory.md section 5,
30_encoding.md section 3). Which offsets a step asks for is the model's DESIGN CHOICE (log 6). -/
def Obligations.CodePortStaysInBounds : Prop :=
  ∀ (s : State) (a : Nat), a ∈ codeAddrs s → a < s.codeSize ∧ s.pc.toNat ≤ a ∧
    (a = s.pc.toNat ∨
      ∃ op, opcodeOf (fetchByte s s.pc.toNat) = some op ∧ a < s.pc.toNat + opcodeLen op)

/-- A step depends on no code byte but those it asks for, nor on any but the opcode byte at the pc and the bytes of the instruction
that the opcode begins (30_encoding.md section 3; which offsets are asked for is the DESIGN CHOICE of log 6): with any other code memory
that agrees on the ones or on the others it does the same, to every part of the state. -/
def Obligations.StepReadsOnlyTheInstructionBytes : Prop :=
  ∀ (s t : State) (code' : Memory), step s = .next t →
    ((∀ a ∈ codeAddrs s, Memory.read code' a = Memory.read s.code a) →
      step { s with code := code' } = .next { t with code := code' }) ∧
    (Memory.read code' s.pc.toNat = Memory.read s.code s.pc.toNat →
      (∀ op a, opcodeOf (fetchByte s s.pc.toNat) = some op → s.pc.toNat ≤ a → a < s.pc.toNat + opcodeLen op →
        Memory.read code' a = Memory.read s.code a) →
      step { s with code := code' } = .next { t with code := code' })
end

