-- ==== Sys2Proof/Laws/Memory.lean ====
section
/-! SUPPORT. The laws of memory: read after write, the canonical form kept by every operation, equal contents as equal data. -/

namespace Sys2Proof.Machine

@[simp] theorem Memory.read_nil (a : Nat) : Memory.read [] a = unlistedByte a := rfl

theorem Memory.read_erase_same (m : Memory) (a : Nat) : Memory.read (Memory.erase m a) a = unlistedByte a := by
  induction m with
  | nil => rfl
  | cons c m ih =>
    by_cases h : c.1 = a
    · simpa [Memory.erase, h] using ih
    · simpa [Memory.erase, Memory.read, h] using ih

theorem Memory.read_erase_other (m : Memory) {a b : Nat} (hne : b ≠ a) :
    Memory.read (Memory.erase m a) b = Memory.read m b := by
  induction m with
  | nil => rfl
  | cons c m ih =>
    by_cases h : c.1 = a
    · have hb : c.1 ≠ b := fun hcb => hne (hcb.symm.trans h)
      simpa [Memory.erase, Memory.read, h, hb, Ne.symm hne] using ih
    · by_cases hb : c.1 = b <;> simp [Memory.erase, Memory.read, h, hb, hne, ih]

theorem Memory.mem_erase {m : Memory} {a : Nat} {c : Host.Cell} :
    c ∈ Memory.erase m a ↔ c ∈ m ∧ c.1 ≠ a := by
  induction m with
  | nil => simp [Memory.erase]
  | cons d m ih =>
    by_cases h : d.1 = a
    · simp only [Memory.erase, h, if_true, ih, List.mem_cons]
      exact ⟨fun ⟨hm, hc⟩ => ⟨.inr hm, hc⟩, fun ⟨hm, hc⟩ => ⟨hm.resolve_left (fun e => hc (e ▸ h)), hc⟩⟩
    · simp only [Memory.erase, h, if_false, List.mem_cons, ih]
      exact ⟨fun hm => hm.elim (fun e => ⟨.inl e, e ▸ h⟩) (fun ⟨x, y⟩ => ⟨.inr x, y⟩),
        fun ⟨hm, hc⟩ => hm.elim .inl (fun x => .inr ⟨x, hc⟩)⟩

theorem Memory.read_insert_same (m : Memory) (a : Nat) (v : Byte) (h : ∀ c ∈ m, c.1 ≠ a) :
    Memory.read (Memory.insert m a v) a = v := by
  induction m with
  | nil => simp [Memory.insert, Memory.read]
  | cons c m ih =>
    by_cases hlt : a < c.1
    · simp [Memory.insert, Memory.read, hlt]
    · have hc : c.1 ≠ a := h c (by simp)
      simpa [Memory.insert, Memory.read, hlt, hc] using ih (fun d hd => h d (by simp [hd]))

theorem Memory.read_insert_other (m : Memory) {a b : Nat} (v : Byte) (hne : b ≠ a) :
    Memory.read (Memory.insert m a v) b = Memory.read m b := by
  induction m with
  | nil => simp [Memory.insert, Memory.read, Ne.symm hne]
  | cons c m ih =>
    by_cases hlt : a < c.1
    · simp [Memory.insert, Memory.read, hlt, Ne.symm hne]
    · simp only [Memory.insert, hlt, if_false, Memory.read, ih]

/-- The byte written is the byte read back. -/
@[simp] theorem Memory.read_write_same (m : Memory) (a : Nat) (v : Byte) :
    Memory.read (Memory.write m a v) a = v := by
  unfold Memory.write
  split
  · next h => rw [Memory.read_erase_same, h]
  · exact Memory.read_insert_same _ _ _ (fun c hc => (Memory.mem_erase.mp hc).2)

/-- A write leaves every other byte alone. -/
theorem Memory.read_write_other (m : Memory) {a b : Nat} (v : Byte) (hne : b ≠ a) :
    Memory.read (Memory.write m a v) b = Memory.read m b := by
  unfold Memory.write
  split
  · exact Memory.read_erase_other m hne
  · rw [Memory.read_insert_other _ _ hne, Memory.read_erase_other m hne]

theorem Memory.mem_insert {m : Memory} {a : Nat} {v : Byte} {c : Host.Cell} :
    c ∈ Memory.insert m a v ↔ c = (a, v) ∨ c ∈ m := by
  induction m with
  | nil => simp [Memory.insert]
  | cons d m ih =>
    by_cases hlt : a < d.1
    · simp [Memory.insert, hlt]
    · simp only [Memory.insert, hlt, if_false, List.mem_cons, ih]
      exact ⟨fun h => h.elim (fun e => .inr (.inl e)) (fun h => h.elim .inl (fun x => .inr (.inr x))),
        fun h => h.elim (fun e => .inr (.inl e)) (fun h => h.elim .inl (fun x => .inr (.inr x)))⟩

theorem Memory.wf_nil : Memory.wf [] := ⟨List.Pairwise.nil, by simp⟩

theorem Memory.erase_wf {m : Memory} (a : Nat) (h : Memory.wf m) : Memory.wf (Memory.erase m a) := by
  refine ⟨?_, fun c hc => h.2 c (Memory.mem_erase.mp hc).1⟩
  have hp := h.1
  clear h
  induction m with
  | nil => exact List.Pairwise.nil
  | cons d m ih =>
    obtain ⟨hd, hm⟩ := List.pairwise_cons.mp hp
    by_cases hda : d.1 = a
    · simpa [Memory.erase, hda] using ih hm
    · simp only [Memory.erase, hda, if_false]
      exact List.pairwise_cons.mpr ⟨fun c hc => hd c (Memory.mem_erase.mp hc).1, ih hm⟩

theorem Memory.insert_wf {m : Memory} {a : Nat} {v : Byte} (hv : v ≠ unlistedByte a) (hne : ∀ c ∈ m, c.1 ≠ a)
    (h : Memory.wf m) : Memory.wf (Memory.insert m a v) := by
  refine ⟨?_, fun c hc => (Memory.mem_insert.mp hc).elim (fun e => by rw [e]; exact hv) (h.2 c)⟩
  have hp := h.1
  clear h
  induction m with
  | nil => simp [Memory.insert]
  | cons d m ih =>
    obtain ⟨hd, hm⟩ := List.pairwise_cons.mp hp
    by_cases hlt : a < d.1
    · simp only [Memory.insert, hlt, if_true]
      refine List.pairwise_cons.mpr ⟨fun c hc => ?_, hp⟩
      rcases List.mem_cons.mp hc with rfl | hc
      · exact hlt
      · exact Nat.lt_trans hlt (hd c hc)
    · have hda : d.1 < a := by
        have := hne d (by simp)
        omega
      simp only [Memory.insert, hlt, if_false]
      refine List.pairwise_cons.mpr ⟨fun c hc => ?_, ih (fun c hc => hne c (by simp [hc])) hm⟩
      rcases Memory.mem_insert.mp hc with rfl | hc
      · exact hda
      · exact hd c hc

/-- A write keeps the canonical form. -/
theorem Memory.write_wf {m : Memory} (a : Nat) (v : Byte) (h : Memory.wf m) : Memory.wf (Memory.write m a v) := by
  unfold Memory.write
  split
  · exact Memory.erase_wf a h
  · next hv => exact Memory.insert_wf hv (fun c hc => (Memory.mem_erase.mp hc).2) (Memory.erase_wf a h)

/-- A write lists no address but its own that was not listed. -/
theorem Memory.write_below {m : Memory} {size a : Nat} (v : Byte) (ha : a < size) (h : Memory.below m size) :
    Memory.below (Memory.write m a v) size := by
  have he : Memory.below (Memory.erase m a) size := fun c hc => h c (Memory.mem_erase.mp hc).1
  unfold Memory.write
  split
  · exact he
  · exact fun c hc => (Memory.mem_insert.mp hc).elim (fun e => by rw [e]; exact ha) (he c)

theorem Memory.writeBytes_wf {m : Memory} (bs : List Byte) (a : Nat) (h : Memory.wf m) :
    Memory.wf (Memory.writeBytes m a bs) := by
  induction bs generalizing m a with
  | nil => exact h
  | cons b bs ih => exact ih (a + 1) (Memory.write_wf a b h)

theorem Memory.ofBytes_ge {bs : List Byte} {a : Nat} {c : Host.Cell} (hc : c ∈ Memory.ofBytes a bs) : a ≤ c.1 := by
  induction bs generalizing a with
  | nil => cases hc
  | cons b bs ih =>
    unfold Memory.ofBytes at hc
    split at hc
    · exact Nat.le_of_succ_le (ih hc)
    · rcases List.mem_cons.mp hc with rfl | hc
      · exact Nat.le_refl _
      · exact Nat.le_of_succ_le (ih hc)

/-- A memory built from bytes is in canonical form. -/
theorem Memory.ofBytes_wf (a : Nat) (bs : List Byte) : Memory.wf (Memory.ofBytes a bs) := by
  induction bs generalizing a with
  | nil => exact Memory.wf_nil
  | cons b bs ih =>
    unfold Memory.ofBytes
    split
    · exact ih (a + 1)
    · next hb =>
      refine ⟨List.pairwise_cons.mpr ⟨fun c hc => Memory.ofBytes_ge hc, (ih (a + 1)).1⟩, fun c hc => ?_⟩
      rcases List.mem_cons.mp hc with rfl | hc
      · exact hb
      · exact (ih (a + 1)).2 c hc

theorem Memory.read_of_not_listed {m : Memory} {a : Nat} (h : ∀ c ∈ m, c.1 ≠ a) :
    Memory.read m a = unlistedByte a := by
  induction m with
  | nil => rfl
  | cons c m ih =>
    simpa [Memory.read, h c (by simp)] using ih (fun d hd => h d (by simp [hd]))

theorem Memory.read_of_mem {m : Memory} (hwf : Memory.wf m) {c : Host.Cell} (hc : c ∈ m) :
    Memory.read m c.1 = c.2 := by
  induction m with
  | nil => cases hc
  | cons d m ih =>
    obtain ⟨hd, hm⟩ := List.pairwise_cons.mp hwf.1
    rcases List.mem_cons.mp hc with rfl | hcm
    · simp [Memory.read]
    · have hne : d.1 ≠ c.1 := Nat.ne_of_lt (hd c hcm)
      simpa [Memory.read, hne] using ih ⟨hm, fun x hx => hwf.2 x (by simp [hx])⟩ hcm

/-- A cell is listed iff its address reads as it and not as unlisted. -/
theorem Memory.mem_iff_read {m : Memory} (hwf : Memory.wf m) {c : Host.Cell} :
    c ∈ m ↔ Memory.read m c.1 = c.2 ∧ c.2 ≠ unlistedByte c.1 := by
  refine ⟨fun hc => ⟨Memory.read_of_mem hwf hc, hwf.2 c hc⟩, fun ⟨hr, hne⟩ => ?_⟩
  by_contra hnot
  have : ∀ d ∈ m, d.1 ≠ c.1 := fun d hd hdc => hnot (by
    have h2 := Memory.read_of_mem hwf hd
    rw [hdc, hr] at h2
    have : d = c := Prod.ext hdc h2.symm
    exact this ▸ hd)
  exact hne (hr.symm.trans (Memory.read_of_not_listed this))

/-- Memories in canonical form that read the same are the same data. -/
theorem Memory.eq_of_read {m n : Memory} (hm : Memory.wf m) (hn : Memory.wf n)
    (h : ∀ a, Memory.read m a = Memory.read n a) : m = n := by
  have hmem : ∀ c, c ∈ m ↔ c ∈ n := fun c => by
    rw [Memory.mem_iff_read hm, Memory.mem_iff_read hn, h]
  have hnd : ∀ {k : Memory}, Memory.wf k → k.Nodup :=
    fun hk => hk.1.imp (fun hlt heq => by rw [heq] at hlt; exact Nat.lt_irrefl _ hlt)
  exact ((List.perm_ext_iff_of_nodup (hnd hm) (hnd hn)).mpr hmem).eq_of_pairwise
    (fun a b _ _ hab hba => absurd (Nat.lt_trans hab hba) (Nat.lt_irrefl _)) hm.1 hn.1

end Sys2Proof.Machine
end

