-- ==== Sys2Proof/Laws/State.lean ====
section
/-! SUPPORT. One lemma per field per update, true by `rfl`, so that no proof unfolds a record update. -/

namespace Sys2Proof.Machine

@[simp] theorem writeReg_regs (i : RegIdx) (v : Word) (s : State) : (writeReg i v s).regs = s.regs.set i v := rfl
@[simp] theorem writeReg_flags (i : RegIdx) (v : Word) (s : State) : (writeReg i v s).flags = s.flags := rfl
@[simp] theorem writeReg_pc (i : RegIdx) (v : Word) (s : State) : (writeReg i v s).pc = s.pc := rfl
@[simp] theorem writeReg_codeSize (i : RegIdx) (v : Word) (s : State) : (writeReg i v s).codeSize = s.codeSize := rfl
@[simp] theorem writeReg_code (i : RegIdx) (v : Word) (s : State) : (writeReg i v s).code = s.code := rfl
@[simp] theorem writeReg_data (i : RegIdx) (v : Word) (s : State) : (writeReg i v s).data = s.data := rfl
@[simp] theorem writeReg_status (i : RegIdx) (v : Word) (s : State) : (writeReg i v s).status = s.status := rfl

@[simp] theorem setFlags_regs (f : Flags) (s : State) : (setFlags f s).regs = s.regs := rfl
@[simp] theorem setFlags_flags (f : Flags) (s : State) : (setFlags f s).flags = f := rfl
@[simp] theorem setFlags_pc (f : Flags) (s : State) : (setFlags f s).pc = s.pc := rfl
@[simp] theorem setFlags_codeSize (f : Flags) (s : State) : (setFlags f s).codeSize = s.codeSize := rfl
@[simp] theorem setFlags_code (f : Flags) (s : State) : (setFlags f s).code = s.code := rfl
@[simp] theorem setFlags_data (f : Flags) (s : State) : (setFlags f s).data = s.data := rfl
@[simp] theorem setFlags_status (f : Flags) (s : State) : (setFlags f s).status = s.status := rfl

@[simp] theorem setPc_regs (t : Word) (s : State) : (setPc t s).regs = s.regs := rfl
@[simp] theorem setPc_flags (t : Word) (s : State) : (setPc t s).flags = s.flags := rfl
@[simp] theorem setPc_pc (t : Word) (s : State) : (setPc t s).pc = t := rfl
@[simp] theorem setPc_codeSize (t : Word) (s : State) : (setPc t s).codeSize = s.codeSize := rfl
@[simp] theorem setPc_code (t : Word) (s : State) : (setPc t s).code = s.code := rfl
@[simp] theorem setPc_data (t : Word) (s : State) : (setPc t s).data = s.data := rfl
@[simp] theorem setPc_status (t : Word) (s : State) : (setPc t s).status = s.status := rfl

@[simp] theorem advance_regs (n : Nat) (s : State) : (advance n s).regs = s.regs := rfl
@[simp] theorem advance_flags (n : Nat) (s : State) : (advance n s).flags = s.flags := rfl
@[simp] theorem advance_pc (n : Nat) (s : State) : (advance n s).pc = s.pc + BitVec.ofNat 32 n := rfl
@[simp] theorem advance_codeSize (n : Nat) (s : State) : (advance n s).codeSize = s.codeSize := rfl
@[simp] theorem advance_code (n : Nat) (s : State) : (advance n s).code = s.code := rfl
@[simp] theorem advance_data (n : Nat) (s : State) : (advance n s).data = s.data := rfl
@[simp] theorem advance_status (n : Nat) (s : State) : (advance n s).status = s.status := rfl

@[simp] theorem storeByte_regs (k : Nat) (v : Byte) (s : State) : (storeByte k v s).regs = s.regs := rfl
@[simp] theorem storeByte_flags (k : Nat) (v : Byte) (s : State) : (storeByte k v s).flags = s.flags := rfl
@[simp] theorem storeByte_pc (k : Nat) (v : Byte) (s : State) : (storeByte k v s).pc = s.pc := rfl
@[simp] theorem storeByte_codeSize (k : Nat) (v : Byte) (s : State) : (storeByte k v s).codeSize = s.codeSize := rfl
@[simp] theorem storeByte_code (k : Nat) (v : Byte) (s : State) : (storeByte k v s).code = s.code := rfl
@[simp] theorem storeByte_data (k : Nat) (v : Byte) (s : State) : (storeByte k v s).data = Memory.write s.data k v := rfl
@[simp] theorem storeByte_status (k : Nat) (v : Byte) (s : State) : (storeByte k v s).status = s.status := rfl

@[simp] theorem raise_regs (k : Cause) (s : State) : (raise k s).regs = s.regs := rfl
@[simp] theorem raise_flags (k : Cause) (s : State) : (raise k s).flags = s.flags := rfl
@[simp] theorem raise_pc (k : Cause) (s : State) : (raise k s).pc = s.pc := rfl
@[simp] theorem raise_codeSize (k : Cause) (s : State) : (raise k s).codeSize = s.codeSize := rfl
@[simp] theorem raise_code (k : Cause) (s : State) : (raise k s).code = s.code := rfl
@[simp] theorem raise_data (k : Cause) (s : State) : (raise k s).data = s.data := rfl
@[simp] theorem raise_status (k : Cause) (s : State) : (raise k s).status = causeStatus k s.pc := rfl

@[simp] theorem haltRun_regs (s : State) : (haltRun s).regs = s.regs := rfl
@[simp] theorem haltRun_flags (s : State) : (haltRun s).flags = s.flags := rfl
@[simp] theorem haltRun_pc (s : State) : (haltRun s).pc = s.pc := rfl
@[simp] theorem haltRun_codeSize (s : State) : (haltRun s).codeSize = s.codeSize := rfl
@[simp] theorem haltRun_code (s : State) : (haltRun s).code = s.code := rfl
@[simp] theorem haltRun_data (s : State) : (haltRun s).data = s.data := rfl
@[simp] theorem haltRun_status (s : State) : (haltRun s).status = .halted := rfl

/-! What the reads of one state see of another's update. -/

@[simp] theorem loadByte_writeReg (a : Nat) (i : RegIdx) (v : Word) (s : State) : loadByte a (writeReg i v s) = loadByte a s := rfl
@[simp] theorem fetchByte_writeReg (i : RegIdx) (v : Word) (s : State) (a : Nat) : fetchByte (writeReg i v s) a = fetchByte s a := rfl
@[simp] theorem readReg_setFlags (j : RegIdx) (f : Flags) (s : State) : readReg j (setFlags f s) = readReg j s := rfl
@[simp] theorem loadByte_setFlags (a : Nat) (f : Flags) (s : State) : loadByte a (setFlags f s) = loadByte a s := rfl
@[simp] theorem fetchByte_setFlags (f : Flags) (s : State) (a : Nat) : fetchByte (setFlags f s) a = fetchByte s a := rfl
@[simp] theorem readReg_setPc (j : RegIdx) (t : Word) (s : State) : readReg j (setPc t s) = readReg j s := rfl
@[simp] theorem loadByte_setPc (a : Nat) (t : Word) (s : State) : loadByte a (setPc t s) = loadByte a s := rfl
@[simp] theorem fetchByte_setPc (t : Word) (s : State) (a : Nat) : fetchByte (setPc t s) a = fetchByte s a := rfl
@[simp] theorem readReg_advance (j : RegIdx) (n : Nat) (s : State) : readReg j (advance n s) = readReg j s := rfl
@[simp] theorem loadByte_advance (a : Nat) (n : Nat) (s : State) : loadByte a (advance n s) = loadByte a s := rfl
@[simp] theorem fetchByte_advance (n : Nat) (s : State) (a : Nat) : fetchByte (advance n s) a = fetchByte s a := rfl
@[simp] theorem readReg_storeByte (j : RegIdx) (k : Nat) (v : Byte) (s : State) : readReg j (storeByte k v s) = readReg j s := rfl
@[simp] theorem fetchByte_storeByte (k : Nat) (v : Byte) (s : State) (a : Nat) : fetchByte (storeByte k v s) a = fetchByte s a := rfl
@[simp] theorem readReg_raise (j : RegIdx) (k : Cause) (s : State) : readReg j (raise k s) = readReg j s := rfl
@[simp] theorem loadByte_raise (a : Nat) (k : Cause) (s : State) : loadByte a (raise k s) = loadByte a s := rfl
@[simp] theorem fetchByte_raise (k : Cause) (s : State) (a : Nat) : fetchByte (raise k s) a = fetchByte s a := rfl
@[simp] theorem readReg_haltRun (j : RegIdx) (s : State) : readReg j (haltRun s) = readReg j s := rfl
@[simp] theorem loadByte_haltRun (a : Nat) (s : State) : loadByte a (haltRun s) = loadByte a s := rfl
@[simp] theorem fetchByte_haltRun (s : State) (a : Nat) : fetchByte (haltRun s) a = fetchByte s a := rfl

@[simp] theorem branch_regs (c : Bool) (d : Word) (s : State) : (branch c d s).regs = s.regs := by cases c <;> rfl
@[simp] theorem branch_flags (c : Bool) (d : Word) (s : State) : (branch c d s).flags = s.flags := by cases c <;> rfl
@[simp] theorem branch_codeSize (c : Bool) (d : Word) (s : State) : (branch c d s).codeSize = s.codeSize := by cases c <;> rfl
@[simp] theorem branch_code (c : Bool) (d : Word) (s : State) : (branch c d s).code = s.code := by cases c <;> rfl
@[simp] theorem branch_data (c : Bool) (d : Word) (s : State) : (branch c d s).data = s.data := by cases c <;> rfl
@[simp] theorem branch_status (c : Bool) (d : Word) (s : State) : (branch c d s).status = s.status := by cases c <;> rfl
@[simp] theorem branch_taken (d : Word) (s : State) : branch true d s = setPc (branchTarget s.pc d) s := rfl
@[simp] theorem branch_not_taken (d : Word) (s : State) : branch false d s = advance branchWidth s := rfl

end Sys2Proof.Machine
end

