-- ==== Sys2Proof/Laws/Ops.lean ====
section
/-! SUPPORT. One lemma for each shared operation that says all it can do, for proofs to cite instead of unfolding it. -/

namespace Sys2Proof.Machine

/-! Registers and bytes. -/

@[simp] theorem readReg_writeReg_same (i : RegIdx) (v : Word) (s : State) : readReg i (writeReg i v s) = v := by
  simp [readReg, writeReg]

theorem readReg_writeReg_other {i j : RegIdx} (v : Word) (s : State) (h : j ≠ i) :
    readReg j (writeReg i v s) = readReg j s := by
  have hne : i.val ≠ j.val := fun e => h (Fin.ext e.symm)
  simp [readReg, writeReg, Vector.getElem_set_ne, hne]

@[simp] theorem loadByte_storeByte_same (k : Nat) (v : Byte) (s : State) : loadByte k (storeByte k v s) = v :=
  Memory.read_write_same _ _ _

theorem loadByte_storeByte_other {k j : Nat} (v : Byte) (s : State) (h : j ≠ k) :
    loadByte j (storeByte k v s) = loadByte j s :=
  Memory.read_write_other _ _ h

/-- Two states are equal when every read of them is. -/
theorem State.ext_reads {s t : State} (hr : ∀ i, readReg i t = readReg i s) (hf : t.flags = s.flags) (hp : t.pc = s.pc)
    (hz : t.codeSize = s.codeSize) (hc : t.code = s.code) (hd : t.data = s.data) (hs : t.status = s.status) : t = s := by
  have hregs : t.regs = s.regs := Vector.ext (fun i hi => hr ⟨i, hi⟩)
  cases s
  cases t
  simp_all

/-! Operand forms. -/

@[simp] theorem regIndex_regByte (i : RegIdx) : regIndex (regByte i) = some i := by
  have h : (regByte i).toNat = i.val := by
    have := i.isLt
    simp only [regByte, BitVec.toNat_ofNat]
    omega
  simp [regIndex, h]

theorem regIndex_eq_none_iff {b : Byte} : regIndex b = none ↔ namesNoReg b := by
  unfold regIndex
  split <;> simp [namesNoReg] <;> omega

theorem regIndex_eq_some_iff {b : Byte} {i : RegIdx} : regIndex b = some i ↔ b = regByte i := by
  refine ⟨fun h => ?_, fun h => h ▸ regIndex_regByte i⟩
  unfold regIndex at h
  split at h
  · next hlt =>
    obtain rfl := Option.some.inj h
    apply BitVec.eq_of_toNat_eq
    have := b.isLt
    simp [regByte]
  · cases h

/-- All an instruction with two register fields can do. -/
theorem withRegs_cases {a b : Byte} {s t : State} {k : RegIdx → RegIdx → State} (h : withRegs a b s k = .next t) :
    (∃ i j, a = regByte i ∧ b = regByte j ∧ t = k i j) ∨
      ((namesNoReg a ∨ namesNoReg b) ∧ t = raise .registerIndexOutOfRange s) := by
  unfold withRegs at h
  rcases ha : regIndex a with _ | i <;> rcases hb : regIndex b with _ | j <;> simp only [ha, hb] at h <;> cases h
  · exact .inr ⟨.inl (regIndex_eq_none_iff.mp ha), rfl⟩
  · exact .inr ⟨.inl (regIndex_eq_none_iff.mp ha), rfl⟩
  · exact .inr ⟨.inr (regIndex_eq_none_iff.mp hb), rfl⟩
  · exact .inl ⟨i, j, regIndex_eq_some_iff.mp ha, regIndex_eq_some_iff.mp hb, rfl⟩

/-- All an instruction with one register field can do. -/
theorem withReg_cases {a : Byte} {s t : State} {k : RegIdx → State} (h : withReg a s k = .next t) :
    (∃ i, a = regByte i ∧ t = k i) ∨ (namesNoReg a ∧ t = raise .registerIndexOutOfRange s) := by
  unfold withReg at h
  rcases ha : regIndex a with _ | i <;> simp only [ha] at h <;> cases h
  · exact .inr ⟨regIndex_eq_none_iff.mp ha, rfl⟩
  · exact .inl ⟨i, regIndex_eq_some_iff.mp ha, rfl⟩

@[simp] theorem withRegs_regBytes (i j : RegIdx) (s : State) (k : RegIdx → RegIdx → State) :
    withRegs (regByte i) (regByte j) s k = .next (k i j) := by
  simp [withRegs]

@[simp] theorem withReg_regByte (i : RegIdx) (s : State) (k : RegIdx → State) :
    withReg (regByte i) s k = .next (k i) := by
  simp [withReg]

/-- A register field that names no register raises, whatever the instruction. -/
theorem withRegs_out_of_range {a b : Byte} (h : namesNoReg a ∨ namesNoReg b) (s : State) (k : RegIdx → RegIdx → State) :
    withRegs a b s k = .next (raise .registerIndexOutOfRange s) := by
  unfold withRegs
  rcases h with h | h <;> rw [regIndex_eq_none_iff.mpr h]
  · cases regIndex b <;> rfl
  · cases regIndex a <;> rfl

theorem withReg_out_of_range {a : Byte} (h : namesNoReg a) (s : State) (k : RegIdx → State) :
    withReg a s k = .next (raise .registerIndexOutOfRange s) := by
  unfold withReg
  rw [regIndex_eq_none_iff.mpr h]

/-- The two things a branch can do. -/
theorem branch_cases (c : Bool) (disp : Word) (s : State) :
    (c = true ∧ branch c disp s = setPc (branchTarget s.pc disp) s) ∨
      (c = false ∧ branch c disp s = advance branchWidth s) := by
  cases c
  · exact .inr ⟨rfl, rfl⟩
  · exact .inl ⟨rfl, rfl⟩

/-! Arithmetic results. -/

@[simp] theorem writeArith_flags (d : RegIdx) (i : Wide) (s : State) : (writeArith d i s).flags = computeFlags i := rfl
@[simp] theorem writeArith_pc (d : RegIdx) (i : Wide) (s : State) : (writeArith d i s).pc = s.pc + 3 := rfl
@[simp] theorem writeArith_codeSize (d : RegIdx) (i : Wide) (s : State) : (writeArith d i s).codeSize = s.codeSize := rfl
@[simp] theorem writeArith_code (d : RegIdx) (i : Wide) (s : State) : (writeArith d i s).code = s.code := rfl
@[simp] theorem writeArith_data (d : RegIdx) (i : Wide) (s : State) : (writeArith d i s).data = s.data := rfl
@[simp] theorem writeArith_status (d : RegIdx) (i : Wide) (s : State) : (writeArith d i s).status = s.status := rfl

@[simp] theorem readReg_writeArith_same (d : RegIdx) (i : Wide) (s : State) : readReg d (writeArith d i s) = trunc32 i := by
  simp [writeArith]

theorem readReg_writeArith_other {d j : RegIdx} (i : Wide) (s : State) (h : j ≠ d) :
    readReg j (writeArith d i s) = readReg j s := by
  simp [writeArith, readReg_writeReg_other _ _ h]

/-! Fetch and step. -/

/-- All a fetch can answer, in the order of R71. -/
theorem fetchInstr_cases (s : State) :
    (s.codeSize ≤ s.pc.toNat ∧ fetchInstr s = { asked := [], instr := .error .programCounterOutOfRange }) ∨
    (s.pc.toNat < s.codeSize ∧ opcodeOf (fetchByte s s.pc.toNat) = none ∧
      fetchInstr s = { asked := [s.pc.toNat], instr := .error .illegalInstruction }) ∨
    (∃ op, s.pc.toNat < s.codeSize ∧ opcodeOf (fetchByte s s.pc.toNat) = some op ∧
      s.codeSize < s.pc.toNat + opcodeLen op ∧
      fetchInstr s = { asked := [s.pc.toNat], instr := .error .programCounterOutOfRange }) ∨
    (∃ op, s.pc.toNat < s.codeSize ∧ opcodeOf (fetchByte s s.pc.toNat) = some op ∧
      s.pc.toNat + opcodeLen op ≤ s.codeSize ∧
      fetchInstr s = { asked := instrOffsets s.pc.toNat (opcodeLen op),
                       instr := decodeAt s (instrOffsets s.pc.toNat (opcodeLen op)) }) := by
  by_cases hp : s.codeSize ≤ s.pc.toNat
  · exact .inl ⟨hp, by simp [fetchInstr, hp]⟩
  · have hlt := Nat.lt_of_not_le hp
    rcases ho : opcodeOf (fetchByte s s.pc.toNat) with _ | op
    · exact .inr (.inl ⟨hlt, rfl, by simp [fetchInstr, hp, ho]⟩)
    · by_cases hw : s.codeSize < s.pc.toNat + opcodeLen op
      · exact .inr (.inr (.inl ⟨op, hlt, rfl, hw, by simp [fetchInstr, hp, ho, hw]⟩))
      · exact .inr (.inr (.inr ⟨op, hlt, rfl, Nat.le_of_not_lt hw, by simp [fetchInstr, hp, ho, hw]⟩))

theorem step_of_fetched {s : State} {i : Instr} (hs : s.status = .running) (hf : (fetchInstr s).instr = .ok i) :
    step s = exec i s := by
  simp [step, hs, hf]

theorem step_of_cause {s : State} {k : Cause} (hs : s.status = .running) (hf : (fetchInstr s).instr = .error k) :
    step s = .next (raise k s) := by
  simp [step, hs, hf]

theorem step_of_ended {s : State} (hs : s.status ≠ .running) : step s = .fault (.runEnded s.status) := by
  simp [step, hs]

/-- All a step that answers a next state can have done. -/
theorem step_cases {s t : State} (h : step s = .next t) :
    s.status = .running ∧
      ((∃ i, (fetchInstr s).instr = .ok i ∧ exec i s = .next t) ∨
        (∃ k, (fetchInstr s).instr = .error k ∧ t = raise k s)) := by
  by_cases hs : s.status = .running
  · rcases hf : (fetchInstr s).instr with k | i
    · rw [step_of_cause hs hf] at h
      cases h
      exact ⟨hs, .inr ⟨k, rfl, rfl⟩⟩
    · rw [step_of_fetched hs hf] at h
      exact ⟨hs, .inl ⟨i, rfl, h⟩⟩
  · rw [step_of_ended hs] at h
    cases h

end Sys2Proof.Machine
end

