-- ==== Sys2Proof/Laws/PerInstr.lean ====
section
/-! SUPPORT. Families of statements about each instruction as syntax, one lemma per constructor. -/

namespace Sys2Proof.Laws

/-- An encoding starts with an opcode tag and has the length that opcode fixes (R50, R60). -/
def EncodedLength.Statement (i : Instr) : Prop :=
  ∃ op rest, encode i = opcodeTag op :: rest ∧ opcodeOf (opcodeTag op) = some op ∧ (encode i).length = opcodeLen op

theorem EncodedLength.store (ptr val : Byte) : EncodedLength.Statement (.store ptr val) := ⟨.store, _, rfl, rfl, rfl⟩
theorem EncodedLength.load (ptr dst : Byte) : EncodedLength.Statement (.load ptr dst) := ⟨.load, _, rfl, rfl, rfl⟩
theorem EncodedLength.add (dst src : Byte) : EncodedLength.Statement (.add dst src) := ⟨.add, _, rfl, rfl, rfl⟩
theorem EncodedLength.sub (dst src : Byte) : EncodedLength.Statement (.sub dst src) := ⟨.sub, _, rfl, rfl, rfl⟩
theorem EncodedLength.movr (dst src : Byte) : EncodedLength.Statement (.movr dst src) := ⟨.movr, _, rfl, rfl, rfl⟩
theorem EncodedLength.movi (dst imm8 : Byte) : EncodedLength.Statement (.movi dst imm8) := ⟨.movi, _, rfl, rfl, rfl⟩
theorem EncodedLength.be (disp : Word) : EncodedLength.Statement (.be disp) := ⟨.branch, _, rfl, rfl, rfl⟩
theorem EncodedLength.bn (disp : Word) : EncodedLength.Statement (.bn disp) := ⟨.branch, _, rfl, rfl, rfl⟩
theorem EncodedLength.bl (disp : Word) : EncodedLength.Statement (.bl disp) := ⟨.branch, _, rfl, rfl, rfl⟩
theorem EncodedLength.halt : EncodedLength.Statement .halt := ⟨.halt, _, rfl, rfl, rfl⟩

end Sys2Proof.Laws
end

