-- ==== Sys2Proof/Laws/Run.lean ====
section
/-! SUPPORT. Runs of several steps: one step at either end, two runs joined, and a relation that every step keeps. -/

namespace Sys2Proof.Machine

@[simp] theorem runFor_zero (s : State) : runFor 0 s = .next s := rfl

/-- The first step of a run. -/
theorem runFor_succ (n : Nat) (s : State) : runFor (n + 1) s =
    match step s with
    | .next u => runFor n u
    | .fault r => .fault r
    | .refused r => .refused r := by
  have hrun : ∀ u : Sys2Proof.core.State, Sys2Proof.core.run (n + 1) u =
      match Sys2Proof.core.step u with
      | .next t => Sys2Proof.core.run n t
      | .fault r => .fault r
      | .refused r => .refused r := fun u => by
    rw [Host.Core.run]
    cases Sys2Proof.core.step u <;> rfl
  refine (hrun s).trans ?_
  rcases h : step s with u | r | r <;> rw [show Sys2Proof.core.step s = _ from h] <;> rfl

theorem runFor_succ_of_step {s u : State} (n : Nat) (h : step s = .next u) : runFor (n + 1) s = runFor n u := by
  rw [runFor_succ, h]

theorem runFor_succ_cases {n : Nat} {s t : State} (h : runFor (n + 1) s = .next t) :
    ∃ u, step s = .next u ∧ runFor n u = .next t := by
  rw [runFor_succ] at h
  rcases hs : step s with u | r | r <;> rw [hs] at h
  · exact ⟨u, rfl, h⟩
  · cases h
  · cases h

/-- The last step of a run. -/
theorem runFor_last {n : Nat} {s t : State} (h : runFor (n + 1) s = .next t) :
    ∃ u, runFor n s = .next u ∧ step u = .next t := by
  induction n generalizing s with
  | zero =>
    obtain ⟨u, hu, ht⟩ := runFor_succ_cases h
    cases ht
    exact ⟨s, rfl, hu⟩
  | succ n ih =>
    obtain ⟨u, hu, ht⟩ := runFor_succ_cases h
    obtain ⟨w, hw, hwt⟩ := ih ht
    exact ⟨w, by rw [runFor_succ_of_step n hu, hw], hwt⟩

/-- A run continued by one step. -/
theorem runFor_snoc {n : Nat} {s u t : State} (h : runFor n s = .next u) (hu : step u = .next t) :
    runFor (n + 1) s = .next t := by
  induction n generalizing s with
  | zero =>
    cases h
    exact runFor_succ_of_step 0 hu
  | succ n ih =>
    obtain ⟨w, hw, hwu⟩ := runFor_succ_cases h
    rw [runFor_succ_of_step _ hw]
    exact ih hwu

/-- A reflexive and transitive relation that every step keeps holds along every run. -/
theorem runFor_keeps {R : State → State → Prop} (hr : ∀ s, R s s) (ht : ∀ s t u, R s t → R t u → R s u)
    (hs : ∀ s t, step s = .next t → R s t) {n : Nat} {s t : State} (h : runFor n s = .next t) : R s t := by
  induction n generalizing s with
  | zero =>
    cases h
    exact hr _
  | succ n ih =>
    obtain ⟨u, hu, hut⟩ := runFor_succ_cases h
    exact ht _ _ _ (hs _ _ hu) (ih hut)

end Sys2Proof.Machine
end

