-- ==== Sys2Proof/Tests/Slice0.lean ====
section
/-! SUPPORT. Tests: expected results are the vectors of spec/95_test_vectors.md or the encodings of 30_encoding.md, named in each
comment. The `witness_` theorems show states that meet the hypotheses of each statement. -/

namespace Sys2Proof.Tests
open Sys2Proof.Machine

/-- The start of a run of these code bytes with input 0 and a zero data memory. -/
def run0 (code : List Byte) : State := State.start { code := code, dataInit := none, r0Init := 0 }

/-- The next state, where there is one. -/
def nextOf (o : Host.Outcome State Fault Refusal) : Option State :=
  match o with
  | .next t => some t
  | .fault _ => none
  | .refused _ => none

/-- One step of the machine, read through a view. -/
def after {α : Type} (s : State) (view : State → α) : Option α := (nextOf (step s)).map view

/-! ### WellFormed: one ill-formed term for each check, at the boundary 16 (R54, R76) -/

theorem test_wellFormed_store_ptr : (Instr.store 16 15).wellFormed = false := by decide
theorem test_wellFormed_store_val : (Instr.store 15 16).wellFormed = false := by decide
theorem test_wellFormed_load_ptr : (Instr.load 16 0).wellFormed = false := by decide
theorem test_wellFormed_load_dst : (Instr.load 0 16).wellFormed = false := by decide
theorem test_wellFormed_add_dst : (Instr.add 16 0).wellFormed = false := by decide
theorem test_wellFormed_add_src : (Instr.add 0 16).wellFormed = false := by decide
theorem test_wellFormed_sub_dst : (Instr.sub 16 0).wellFormed = false := by decide
theorem test_wellFormed_sub_src : (Instr.sub 0 16).wellFormed = false := by decide
theorem test_wellFormed_movr_dst : (Instr.movr 16 0).wellFormed = false := by decide
theorem test_wellFormed_movr_src : (Instr.movr 0 255).wellFormed = false := by decide
theorem test_wellFormed_movi_dst : (Instr.movi 16 0).wellFormed = false := by decide
theorem test_wellFormed_movi_any_immediate : (Instr.movi 15 255).wellFormed = true := by decide

/-! ### Decoding: words written out from R51 to R53 and R66, one for every constructor -/

/-- LS1, `53 01 02`. -/
theorem test_decode_store : decode [0x53, 0x01, 0x02] = .ok (.store 1 2, []) := by rfl
/-- LS8, `4C 01 03`. -/
theorem test_decode_load : decode [0x4C, 0x01, 0x03] = .ok (.load 1 3, []) := by rfl
/-- R105, `41 04 02`. -/
theorem test_decode_add : decode [0x41, 0x04, 0x02] = .ok (.add 4 2, []) := by rfl
/-- R106, `55 00 03`. -/
theorem test_decode_sub : decode [0x55, 0x00, 0x03] = .ok (.sub 0 3, []) := by rfl
/-- MV7, `4D 00 09`. -/
theorem test_decode_movr : decode [0x4D, 0x00, 0x09] = .ok (.movr 0 9, []) := by rfl
/-- MV5, `49 0F 80`. -/
theorem test_decode_movi : decode [0x49, 0x0F, 0x80] = .ok (.movi 15 0x80, []) := by rfl
/-- BT7, `42 45 12 00 00 00`, displacement 18. -/
theorem test_decode_be : decode [0x42, 0x45, 0x12, 0, 0, 0] = .ok (.be 18, []) := by rfl
/-- BT6, `42 4E E5 FF FF FF`, displacement -27. -/
theorem test_decode_bn : decode [0x42, 0x4E, 0xE5, 0xFF, 0xFF, 0xFF] = .ok (.bn (BitVec.ofInt 32 (-27)), []) := by rfl
/-- BT10, `42 4C 00 00 00 80`, displacement -2147483648. -/
theorem test_decode_bl : decode [0x42, 0x4C, 0, 0, 0, 0x80] = .ok (.bl (BitVec.ofInt 32 (-2147483648)), []) := by rfl
/-- R137, `48`; the byte after it is left. -/
theorem test_decode_halt : decode [0x48, 0x49] = .ok (.halt, [0x49]) := by rfl
/-- DC2: a lower-case letter is no opcode. -/
theorem test_decode_lower_case : decode [0x73, 0, 0] = .error (.illegalOpcode 0x73) := by rfl
/-- DC4: `B` with tag `G`. -/
theorem test_decode_bad_condition : decode [0x42, 0x47, 0, 0, 0, 0] = .error (.illegalCondition 0x47) := by rfl
/-- DC11: cut short. -/
theorem test_decode_truncated : decode [0x41, 0x01] = .error .truncated := by rfl
/-- The opcode table's number for BT6: `W[8k+7:8k] = bk` (R51). -/
theorem test_decodeTableWord_bn : decodeTableWord 48 0xFFFFFFE54E42 = some (.bn (BitVec.ofInt 32 (-27))) := by rfl
/-- The opcode table's number for `A r4, r2`. -/
theorem test_decodeTableWord_add : decodeTableWord 24 0x020441 = some (.add 4 2) := by rfl

/-! ### One step of each instruction -/

/-- LS2: only the low 8 bits are stored. -/
theorem test_store_low_byte :
    after (writeReg 1 0x7F (writeReg 2 0x1234 (run0 [0x53, 1, 2]))) (fun t => (loadByte 127 t, t.pc)) = some (0x34, 3) := by decide
/-- LS5: bits 31 to 8 of the pointer are ignored. -/
theorem test_store_high_pointer_bits :
    after (writeReg 1 0x12345680 (writeReg 2 1 (run0 [0x53, 1, 2]))) (fun t => loadByte 128 t) = some 1 := by decide
/-- LS8: the loaded byte is not sign-extended. -/
theorem test_load_zero_extends :
    after (storeByte 255 0xFE (writeReg 1 0xFF (writeReg 3 0xFFFFFFFF (run0 [0x4C, 1, 3])))) (readReg 3) = some 0xFE := by decide
/-- LS9: the address is read before the write. -/
theorem test_load_into_pointer :
    after (storeByte 128 7 (writeReg 1 0x80 (run0 [0x4C, 1, 1]))) (readReg 1) = some 7 := by decide
/-- A3: the truncated sum is 0 and Zero is clear. -/
theorem test_add_carry :
    after (writeReg 1 0xFFFFFFFF (writeReg 2 1 (run0 [0x41, 1, 2]))) (fun t => (readReg 1 t, t.flags)) =
      some (0, ⟨false, false, true⟩) := by decide
/-- A10: both operands the same register. -/
theorem test_add_same_register :
    after (writeReg 1 0x80000000 (run0 [0x41, 1, 1])) (fun t => (readReg 1 t, t.flags)) = some (0, ⟨false, false, true⟩) := by decide
/-- SB10: a borrow without a sign. -/
theorem test_sub_borrow :
    after (writeReg 2 0xFFFFFFFF (run0 [0x55, 1, 2])) (fun t => (readReg 1 t, t.flags)) = some (1, ⟨false, false, true⟩) := by decide
/-- SB6: signed overflow does not set Overflow. -/
theorem test_sub_signed_overflow :
    after (writeReg 1 0x80000000 (writeReg 2 1 (run0 [0x55, 1, 2]))) (fun t => (readReg 1 t, t.flags)) =
      some (0x7FFFFFFF, ⟨false, false, false⟩) := by decide
/-- MV1. -/
theorem test_movr_copies :
    after (writeReg 2 0xDEADBEEF (run0 [0x4D, 1, 2])) (fun t => (readReg 1 t, readReg 2 t)) =
      some (0xDEADBEEF, 0xDEADBEEF) := by decide
/-- MV7: a zero move does not set Zero. -/
theorem test_movr_flags :
    after (setFlags ⟨true, false, false⟩ (writeReg 0 5 (run0 [0x4D, 0, 9]))) (fun t => (readReg 0 t, t.flags)) =
      some (0, ⟨true, false, false⟩) := by decide
/-- MV3. -/
theorem test_movi_zero_extends :
    after (writeReg 4 0x12345678 (run0 [0x49, 4, 0xFF])) (readReg 4) = some 0xFF := by decide
/-- MV6: the flags are unchanged. -/
theorem test_movi_flags :
    after (setFlags ⟨false, true, true⟩ (run0 [0x49, 0, 1])) (fun t => t.flags) = some ⟨false, true, true⟩ := by decide
/-- BF5 (taken) at pc 0, displacement 10. -/
theorem test_be_taken :
    after (setFlags ⟨true, false, false⟩ (run0 [0x42, 0x45, 0x0A, 0, 0, 0])) (fun t => t.pc) = some 16 := by decide
/-- BF2: not taken although the sum register may be 0. -/
theorem test_be_not_taken :
    after (setFlags ⟨false, false, true⟩ (run0 [0x42, 0x45, 0x0A, 0, 0, 0])) (fun t => t.pc) = some 6 := by decide
/-- BT8: the target wraps. -/
theorem test_bn_wraps :
    after (run0 [0x42, 0x4E, 0x9C, 0xFF, 0xFF, 0xFF]) (fun t => t.pc) = some 0xFFFFFFA2 := by decide
/-- BF5: not taken when Zero is set. -/
theorem test_bn_not_taken :
    after (setFlags ⟨true, false, false⟩ (run0 [0x42, 0x4E, 0x0A, 0, 0, 0])) (fun t => t.pc) = some 6 := by decide
/-- BF3: Negative without Overflow. -/
theorem test_bl_taken :
    after (setFlags ⟨false, true, false⟩ (run0 [0x42, 0x4C, 0x0A, 0, 0, 0])) (fun t => t.pc) = some 16 := by decide
/-- BF8: Zero is ignored and Negative with Overflow does not take it. -/
theorem test_bl_not_taken :
    after (setFlags ⟨true, true, true⟩ (run0 [0x42, 0x4C, 0x0A, 0, 0, 0])) (fun t => t.pc) = some 6 := by decide
/-- DC14: `H` as the last byte halts, the pc kept. -/
theorem test_halt : after (run0 [0x48]) (fun t => (t.status, t.pc)) = some (.halted, 0) := by decide

/-! ### The checks of the step, at their boundaries (section 2.7 of the vectors) -/

/-- DC13: an empty code memory. -/
theorem test_empty_code : after (run0 []) (fun t => t.status) = some (.programCounterOutOfRange 0) := by decide
/-- DC15: the opcode check comes before the width check. -/
theorem test_illegal_last_byte : after (run0 [0x58]) (fun t => t.status) = some (.illegalInstruction 0) := by decide
/-- DC7: the bound check comes before the condition check. -/
theorem test_bound_before_condition : after (run0 [0x42, 0x47, 0]) (fun t => t.status) = some (.programCounterOutOfRange 0) := by decide
/-- DC12: the bound check comes before the register check. -/
theorem test_bound_before_register : after (run0 [0x41, 0x10]) (fun t => t.status) = some (.programCounterOutOfRange 0) := by decide
/-- DC16: the second register byte is checked. -/
theorem test_second_register : after (run0 [0x4C, 5, 0x20]) (fun t => t.status) = some (.registerIndexOutOfRange 0) := by decide
/-- An ended run takes no step (R27). -/
theorem test_ended_run : nextOf (step (haltRun (run0 [0x48]))) = none := by decide

/-- The table's number for `I r4, 0xFF` runs as the first instruction after reset. -/
theorem test_withFetchWord_movi : after (State.reset.withFetchWord 24 0xFF0449) (fun t => (readReg 4 t, t.pc)) = some (0xFF, 3) := by decide
/-- The table's number for `BN +10` runs as the first instruction after reset. -/
theorem test_withFetchWord_bn : after (State.reset.withFetchWord 48 0xA4E42) (fun t => t.pc) = some 16 := by decide
/-- The initial data byte of a host's `DATA_INIT` is read (R26). -/
theorem test_dataInit :
    loadByte 255 (State.start { code := [], dataInit := some (Vector.replicate 256 7), r0Init := 0 }) = 7 := by decide +kernel

/-! ### Witnesses: for each statement with hypotheses, states and operands that meet them, one for each clause

Statements without hypotheses (`DecodeOfEncodeIsTheInstruction`, `SampleWordsDecode`, `HaltStopsTheRun`'s first clause, the exec
clauses of the instructions, `StartSetsRegistersFlagsAndPc`, `ResetIsAStart`, `ResetMeetsTheInvariant`) need none. -/

/-- `run0` with the pc and the flags given. -/
def mid (code : List Byte) (pc : Word) (f : Flags) : State := setPc pc (setFlags f (run0 code))

theorem witness_EncodeOfDecodeIsTheBytes : decode [0x41, 0xFF, 0x10, 0x48] = .ok (.add 0xFF 0x10, [0x48]) := by rfl

theorem witness_OpcodeMapDecodesEveryRow :
    (0x44 : Byte) ∉ conditionBytes ∧ (0x46 : Byte) ∉ conditionBytes ∧ (0x40 : Byte) ∉ opcodeBytes ∧ (0x43 : Byte) ∉ opcodeBytes := by
  decide

theorem witness_OpcodeFixesTheLength : (0x49 : Byte) ∈ threeByteOpcodes ∧ (0x4A : Byte) ∉ opcodeBytes := by decide

/-- The instruction ends exactly at the end of the code memory. -/
theorem witness_StepRunsTheDecodedInstruction :
    (run0 [0x41, 4, 2]).status = .running ∧ (run0 [0x41, 4, 2]).pc.toNat + 3 ≤ (run0 [0x41, 4, 2]).codeSize ∧
      decode (Memory.readBytes (run0 [0x41, 4, 2]).code (run0 [0x41, 4, 2]).pc.toNat 3) = .ok (.add 4 2, []) :=
  ⟨rfl, by decide, rfl⟩

/-- Each check of R71 fails first somewhere (DC13, DC1, DC6, DC4, DC8, DC9), and all pass at the boundary register 15. -/
theorem witness_StepFollowsTheCheckOrder :
    (run0 []).status = .running ∧ firstFailedCheck (run0 []) = some .programCounterOutOfRange ∧
      firstFailedCheck (run0 [0x58]) = some .illegalInstruction ∧
      firstFailedCheck (run0 [0x42, 0x45, 0]) = some .programCounterOutOfRange ∧
      firstFailedCheck (run0 [0x42, 0x47, 0, 0, 0, 0]) = some .illegalInstruction ∧
      firstFailedCheck (run0 [0x41, 0x10, 0]) = some .registerIndexOutOfRange ∧
      firstFailedCheck (run0 [0x49, 0x10, 0xFF]) = some .registerIndexOutOfRange ∧
      firstFailedCheck (run0 [0x41, 0x0F, 0x0F]) = none ∧ firstFailedCheck (run0 [0x48]) = none := by decide

theorem witness_IllegalOpcodeEndsTheRun :
    (run0 [0x58]).status = .running ∧ (run0 [0x58]).pc.toNat < (run0 [0x58]).codeSize ∧
      fetchByte (run0 [0x58]) (run0 [0x58]).pc.toNat ∉ opcodeBytes := by decide

theorem witness_IllegalConditionEndsTheRun :
    placedAt (run0 [0x42, 0x47, 0, 0, 0, 0]) [0x42, 0x47, 0, 0, 0, 0] ∧ (0x47 : Byte) ∉ conditionBytes := by decide

/-- A running state for each side of each cause: DC1 and DC4, DC13, DC11 and DC6, DC8, DC16 and DC9, DC14 and a state that runs on. -/
theorem witness_causes_of_the_outcomes :
    (run0 [0x58]).status = .running ∧ after (run0 [0x58]) (fun t => t.status) = some (.illegalInstruction 0) ∧
      after (run0 [0x42, 0x47, 0, 0, 0, 0]) (fun t => t.status) = some (.illegalInstruction 0) ∧
      after (run0 []) (fun t => t.status) = some (.programCounterOutOfRange 0) ∧
      after (run0 [0x41, 1]) (fun t => t.status) = some (.programCounterOutOfRange 0) ∧
      after (run0 [0x42, 0x45, 0, 0, 0]) (fun t => t.status) = some (.programCounterOutOfRange 0) ∧
      after (run0 [0x41, 0x10, 0]) (fun t => t.status) = some (.registerIndexOutOfRange 0) ∧
      after (run0 [0x4C, 5, 0x20]) (fun t => t.status) = some (.registerIndexOutOfRange 0) ∧
      after (run0 [0x49, 0x10, 0xFF]) (fun t => t.status) = some (.registerIndexOutOfRange 0) ∧
      after (run0 [0x48]) (fun t => t.status) = some .halted ∧
      after (run0 [0x41, 0x0F, 0x0F]) (fun t => t.status) = some .running := by decide

theorem witness_StepAnswersExactlyWhileRunning :
    (run0 [0x48]).status = .running ∧ (haltRun (run0 [0x48])).status ≠ .running := by decide

theorem witness_EndOfRunChangesOnlyTheStatus :
    step (run0 [0x48]) = .next (haltRun (run0 [0x48])) ∧ (haltRun (run0 [0x48])).status ≠ .running ∧
      step (run0 [0x58]) = .next (raise .illegalInstruction (run0 [0x58])) ∧
      faultPc (raise .illegalInstruction (run0 [0x58])) = some 0 :=
  ⟨rfl, by decide, rfl, rfl⟩

theorem witness_WellFormedInstructionsComplete :
    (Instr.add 15 15).wellFormed = true ∧ (Instr.add 15 16).wellFormed = false := by decide

/-- `S`: placed, cut short both ways, and each register field at 16. -/
theorem witness_StoreWritesOneByte :
    placedAt (run0 [0x53, 15, 0]) [0x53, regByte 15, regByte 0] ∧ cutShort (run0 []) 0x53 3 ∧ cutShort (run0 [0x53, 1]) 0x53 3 ∧
      placedAt (run0 [0x53, 16, 0]) [0x53, 16, 0] ∧ placedAt (run0 [0x53, 0, 16]) [0x53, 0, 16] ∧ namesNoReg 16 := by decide

theorem witness_LoadReadsOneByte :
    placedAt (run0 [0x4C, 15, 0]) [0x4C, regByte 15, regByte 0] ∧ cutShort (run0 []) 0x4C 3 ∧ cutShort (run0 [0x4C, 1]) 0x4C 3 ∧
      placedAt (run0 [0x4C, 16, 0]) [0x4C, 16, 0] ∧ placedAt (run0 [0x4C, 0, 16]) [0x4C, 0, 16] ∧ namesNoReg 16 := by decide

theorem witness_AddWritesSumAndFlags :
    placedAt (run0 [0x41, 15, 0]) [0x41, regByte 15, regByte 0] ∧ cutShort (run0 []) 0x41 3 ∧ cutShort (run0 [0x41, 1]) 0x41 3 ∧
      placedAt (run0 [0x41, 16, 0]) [0x41, 16, 0] ∧ placedAt (run0 [0x41, 0, 16]) [0x41, 0, 16] ∧ namesNoReg 16 := by decide

theorem witness_SubWritesDifferenceAndFlags :
    placedAt (run0 [0x55, 15, 0]) [0x55, regByte 15, regByte 0] ∧ cutShort (run0 []) 0x55 3 ∧ cutShort (run0 [0x55, 1]) 0x55 3 ∧
      placedAt (run0 [0x55, 16, 0]) [0x55, 16, 0] ∧ placedAt (run0 [0x55, 0, 16]) [0x55, 0, 16] ∧ namesNoReg 16 := by decide

theorem witness_MoveRegisterCopies :
    placedAt (run0 [0x4D, 15, 0]) [0x4D, regByte 15, regByte 0] ∧ cutShort (run0 []) 0x4D 3 ∧ cutShort (run0 [0x4D, 1]) 0x4D 3 ∧
      placedAt (run0 [0x4D, 16, 0]) [0x4D, 16, 0] ∧ placedAt (run0 [0x4D, 0, 16]) [0x4D, 0, 16] ∧ namesNoReg 16 := by decide

theorem witness_MoveImmediateZeroExtends :
    placedAt (run0 [0x49, 15, 0xFF]) [0x49, regByte 15, 0xFF] ∧ cutShort (run0 []) 0x49 3 ∧ cutShort (run0 [0x49, 1]) 0x49 3 ∧
      placedAt (run0 [0x49, 16, 0xFF]) [0x49, 16, 0xFF] ∧ namesNoReg 16 := by decide

/-- The branches: placed with the displacement -27 of BT6, cut short both ways. -/
theorem witness_branches_placed_and_cut_short :
    placedAt (run0 [0x42, 0x45, 0xE5, 0xFF, 0xFF, 0xFF])
      [0x42, 0x45, wordByte 0xFFFFFFE5 0, wordByte 0xFFFFFFE5 1, wordByte 0xFFFFFFE5 2, wordByte 0xFFFFFFE5 3] ∧
    placedAt (run0 [0x42, 0x4E, 0xE5, 0xFF, 0xFF, 0xFF])
      [0x42, 0x4E, wordByte 0xFFFFFFE5 0, wordByte 0xFFFFFFE5 1, wordByte 0xFFFFFFE5 2, wordByte 0xFFFFFFE5 3] ∧
    placedAt (run0 [0x42, 0x4C, 0xE5, 0xFF, 0xFF, 0xFF])
      [0x42, 0x4C, wordByte 0xFFFFFFE5 0, wordByte 0xFFFFFFE5 1, wordByte 0xFFFFFFE5 2, wordByte 0xFFFFFFE5 3] ∧
    cutShort (run0 []) 0x42 6 ∧ cutShort (run0 [0x42, 0x45, 0, 0, 0]) 0x42 6 := by decide

theorem witness_UntakenBranchAdvancesBySix :
    (mid [] 0 ⟨false, true, true⟩).flags.z = false ∧ (mid [] 0 ⟨true, false, false⟩).flags.z = true ∧
      (mid [] 0 ⟨false, true, true⟩).flags.n = (mid [] 0 ⟨false, true, true⟩).flags.o := by decide

theorem witness_HaltStopsTheRun : placedAt (run0 [0x48]) [0x48] := by decide

/-- A3's operands, whose sum is 2^32, and A1's, whose sum is not. -/
theorem witness_FlagEngineOnTheIntermediate :
    (0xFFFFFFFF : Word).toNat + (1 : Word).toNat = 2 ^ 32 ∧ (1 : Word).toNat + (2 : Word).toNat ≠ 2 ^ 32 := by decide

theorem witness_ArithmeticReplacesAllFlags :
    exec .halt (run0 []) = .next (haltRun (run0 [])) ∧ (∀ a b, Instr.halt ≠ .add a b) ∧ (∀ a b, Instr.halt ≠ .sub a b) :=
  ⟨rfl, by simp, by simp⟩

/-- A non-branch, and flags that agree with the state's on what each branch reads and differ elsewhere. -/
theorem witness_FlagWritersAndReaders :
    exec .halt (run0 []) = .next (haltRun (run0 [])) ∧ (∀ a b, Instr.halt ≠ .add a b) ∧ (∀ a b, Instr.halt ≠ .sub a b) ∧
      (∀ d, Instr.halt ≠ .be d) ∧ (∀ d, Instr.halt ≠ .bn d) ∧ (∀ d, Instr.halt ≠ .bl d) ∧
      (⟨false, true, true⟩ : Flags).z = (run0 []).flags.z ∧
      (⟨true, false, false⟩ : Flags).n = (run0 []).flags.n ∧ (⟨true, false, false⟩ : Flags).o = (run0 []).flags.o :=
  ⟨rfl, by simp, by simp, by simp, by simp, by simp, rfl, rfl, rfl⟩

/-- The largest operands below 2^31. -/
theorem witness_FlagConsequences :
    (readReg 1 (writeReg 1 0x7FFFFFFF (run0 []))).toNat < 2 ^ 31 ∧
      (readReg 2 (writeReg 2 0x7FFFFFFF (run0 []))).toNat < 2 ^ 31 := by decide

theorem witness_EffectiveAddressIsTheSignedLowByte :
    dataOffset 0x17F = 127 ∧ dataOffset 0x80 = 128 ∧ dataOffset 0xFFFFFFFF = 255 := by decide

/-- A different pointer register with the same low byte, after the store. -/
theorem witness_StoreThenLoadRoundTrip :
    ∃ s1, exec (.store (regByte 1) (regByte 2)) (writeReg 1 0x180 (writeReg 2 0x1AB (run0 []))) = .next s1 ∧
      loadByte 128 (writeReg 3 0x80 s1) = loadByte 128 s1 ∧
      (readReg 3 (writeReg 3 0x80 s1)).toNat % 256 = 0x180 % 256 ∧ loadByte 128 s1 = 0xAB :=
  ⟨_, rfl, by decide, by decide, by decide⟩

/-- The inputs of a program that stores register 2 at offset 0 and loads it back. -/
def storeThenLoad : HostInputs := { code := [0x53, 1, 2, 0x4C, 1, 4], dataInit := none, r0Init := 0 }

/-- No store to offset 1, a store to offset 0 that none follows, and the load of it. -/
theorem witness_LoadReturnsTheMostRecentStore :
    0 < 256 ∧ 1 < 256 ∧ ∃ t, runFor 1 (State.start storeThenLoad) = .next t ∧ storesAt (State.start storeThenLoad) 0 2 ∧
      (∀ v, ¬ storesAt (State.start storeThenLoad) 1 v) ∧
      placedAt t [0x4C, regByte 1, regByte 4] ∧ dataOffset (readReg 1 t) = 0 :=
  ⟨by decide, by decide, _, rfl, ⟨1, by decide, by decide⟩, by decide, by decide, by decide⟩

theorem witness_CodeMemoryNeverChanges : ∃ t, runFor 2 (State.start storeThenLoad) = .next t := ⟨_, rfl⟩

theorem witness_EveryStepKeepsTheInvariant :
    (run0 [0x53, 0, 0]).Inv ∧ ∃ t, step (run0 [0x53, 0, 0]) = .next t :=
  ⟨⟨by decide, by decide, by decide, by decide, by decide, by decide, fun _ h => by cases h⟩, _, rfl⟩

theorem witness_StartMeetsTheInvariant : storeThenLoad.wf := by decide

theorem witness_StartSetsTheMemories :
    5 < storeThenLoad.code.length ∧ storeThenLoad.dataInit = none ∧
      ({ code := [], dataInit := some (Vector.replicate 256 7), r0Init := 0 } : HostInputs).dataInit =
        some (Vector.replicate 256 7) ∧ 255 < 256 :=
  ⟨by decide, rfl, rfl, by decide⟩

/-- A taken `BE` to 16 and a taken `BN` and `BL` to -94: the code ends before each target. -/
theorem witness_OutOfRangeTargetFaultsAtTheNextStep :
    placedAt (mid [0x42, 0x45, 0x0A, 0, 0, 0] 0 ⟨true, false, false⟩)
        [0x42, 0x45, wordByte 10 0, wordByte 10 1, wordByte 10 2, wordByte 10 3] ∧
      (mid [0x42, 0x45, 0x0A, 0, 0, 0] 0 ⟨true, false, false⟩).flags.z = true ∧
      after (mid [0x42, 0x45, 0x0A, 0, 0, 0] 0 ⟨true, false, false⟩) (fun t => decide (t.codeSize ≤ t.pc.toNat)) = some true ∧
      placedAt (mid [0x42, 0x4E, 0x9C, 0xFF, 0xFF, 0xFF] 0 ⟨false, false, false⟩)
        [0x42, 0x4E, wordByte 0xFFFFFF9C 0, wordByte 0xFFFFFF9C 1, wordByte 0xFFFFFF9C 2, wordByte 0xFFFFFF9C 3] ∧
      (mid [0x42, 0x4E, 0x9C, 0xFF, 0xFF, 0xFF] 0 ⟨false, false, false⟩).flags.z = false ∧
      placedAt (mid [0x42, 0x4C, 0x9C, 0xFF, 0xFF, 0xFF] 0 ⟨false, true, false⟩)
        [0x42, 0x4C, wordByte 0xFFFFFF9C 0, wordByte 0xFFFFFF9C 1, wordByte 0xFFFFFF9C 2, wordByte 0xFFFFFF9C 3] ∧
      (mid [0x42, 0x4C, 0x9C, 0xFF, 0xFF, 0xFF] 0 ⟨false, true, false⟩).flags.n ≠
        (mid [0x42, 0x4C, 0x9C, 0xFF, 0xFF, 0xFF] 0 ⟨false, true, false⟩).flags.o ∧
      (0 : Int) + 6 + (0xFFFFFF9C : Word).toInt < 0 ∧
      (mid [0x42, 0x4E, 0x9C, 0xFF, 0xFF, 0xFF] 0 ⟨false, false, false⟩).codeSize ≤ 2 ^ 31 - 6 ∧
      (mid [0x42, 0x4C, 0x9C, 0xFF, 0xFF, 0xFF] 0 ⟨false, true, false⟩).codeSize ≤ 2 ^ 31 - 6 := by decide

/-- Each of the three branches to itself, taken. -/
theorem witness_BranchToItselfNeverEnds :
    placedAt (mid [0x42, 0x45, 0xFA, 0xFF, 0xFF, 0xFF] 0 ⟨true, false, false⟩) [0x42, 0x45, 0xFA, 0xFF, 0xFF, 0xFF] ∧
      placedAt (mid [0x42, 0x4E, 0xFA, 0xFF, 0xFF, 0xFF] 0 ⟨false, false, false⟩) [0x42, 0x4E, 0xFA, 0xFF, 0xFF, 0xFF] ∧
      placedAt (mid [0x42, 0x4C, 0xFA, 0xFF, 0xFF, 0xFF] 0 ⟨false, true, false⟩) [0x42, 0x4C, 0xFA, 0xFF, 0xFF, 0xFF] ∧
      (mid [0x42, 0x45, 0xFA, 0xFF, 0xFF, 0xFF] 0 ⟨true, false, false⟩).flags.z = true ∧
      (mid [0x42, 0x4E, 0xFA, 0xFF, 0xFF, 0xFF] 0 ⟨false, false, false⟩).flags.z = false ∧
      (mid [0x42, 0x4C, 0xFA, 0xFF, 0xFF, 0xFF] 0 ⟨false, true, false⟩).flags.n ≠
        (mid [0x42, 0x4C, 0xFA, 0xFF, 0xFF, 0xFF] 0 ⟨false, true, false⟩).flags.o := by decide

theorem witness_ResultOnlyAfterHalt :
    (haltRun (run0 [])).status = .halted ∧ (run0 []).status ≠ .halted ∧ result (run0 []) = none ∧ faultPc (raise .illegalInstruction (run0 [])) = some 0 ∧
      placedAt (run0 [0x48]) [0x48] := by decide

/-- The last offset of an instruction that ends with the code memory is asked for. -/
theorem witness_CodePortStaysInBounds : 2 ∈ codeAddrs (run0 [0x41, 4, 2]) := by decide

/-- Two code memories that differ only after the instruction. -/
theorem witness_StepReadsOnlyTheInstructionBytes :
    (∀ a ∈ codeAddrs (run0 [0x48, 0x41]), Memory.read (Memory.write (run0 [0x48, 0x41]).code 1 0x42) a =
        Memory.read (run0 [0x48, 0x41]).code a) ∧
      Memory.read (Memory.write (run0 [0x48, 0x41]).code 1 0x42) 0 = Memory.read (run0 [0x48, 0x41]).code 0 ∧
      opcodeOf (fetchByte (run0 [0x48, 0x41]) 0) = some .halt ∧ opcodeLen .halt = 1 ∧
      Memory.write (run0 [0x48, 0x41]).code 1 0x42 ≠ (run0 [0x48, 0x41]).code ∧
      step (run0 [0x48, 0x41]) = .next (haltRun (run0 [0x48, 0x41])) :=
  ⟨by decide, by decide, by decide, by decide, by decide, rfl⟩

end Sys2Proof.Tests
end

section
/-! SUPPORT. The proofs about the state (10_state.md): its start values and which instructions write and read the flags. -/

namespace Sys2Proof.Machine

/-! The start of a run. -/

@[simp] theorem start_flags (h : HostInputs) : (State.start h).flags = ⟨false, false, false⟩ := rfl
@[simp] theorem start_pc (h : HostInputs) : (State.start h).pc = 0 := rfl

@[simp] theorem readReg_start_zero (h : HostInputs) : readReg 0 (State.start h) = h.r0Init := by
  simp [readReg, State.start]

theorem readReg_start_other (h : HostInputs) {i : RegIdx} (hi : i ≠ 0) : readReg i (State.start h) = 0 := by
  have hne : (0 : Nat) ≠ i.val := fun e => hi (Fin.ext e.symm)
  simp [readReg, State.start, Vector.getElem_set_ne, hne]

/-- Settles O39, from the reads of the start state. -/
theorem startSetsRegistersFlagsAndPc : Obligations.StartSetsRegistersFlagsAndPc := fun h =>
  ⟨readReg_start_zero h, fun _ hi => readReg_start_other h hi, start_flags h, start_pc h⟩

/-! The meaning of each instruction, through the operand form it uses. -/

theorem exec_store (ptr val : Byte) (s : State) : exec (.store ptr val) s =
    withRegs ptr val s fun p v => advance 3 (storeByte (dataOffset (readReg p s)) (lowByte (readReg v s)) s) := rfl

theorem exec_load (ptr dst : Byte) (s : State) : exec (.load ptr dst) s =
    withRegs ptr dst s fun p d => advance 3 (writeReg d (zextByte (loadByte (dataOffset (readReg p s)) s)) s) := rfl

theorem exec_add (dst src : Byte) (s : State) : exec (.add dst src) s =
    withRegs dst src s fun d r => writeArith d (addWide (readReg d s) (readReg r s)) s := rfl

theorem exec_sub (dst src : Byte) (s : State) : exec (.sub dst src) s =
    withRegs dst src s fun d r => writeArith d (subWide (readReg d s) (readReg r s)) s := rfl

theorem exec_movr (dst src : Byte) (s : State) : exec (.movr dst src) s =
    withRegs dst src s fun d r => advance 3 (writeReg d (readReg r s) s) := rfl

theorem exec_movi (dst imm8 : Byte) (s : State) : exec (.movi dst imm8) s =
    withReg dst s fun d => advance 3 (writeReg d (zextByte imm8) s) := rfl

theorem exec_be (disp : Word) (s : State) : exec (.be disp) s = .next (branch (condEqual s.flags) disp s) := rfl

theorem exec_bn (disp : Word) (s : State) : exec (.bn disp) s = .next (branch (condNotEqual s.flags) disp s) := rfl

theorem exec_bl (disp : Word) (s : State) : exec (.bl disp) s = .next (branch (condLess s.flags) disp s) := rfl

theorem exec_halt (s : State) : exec .halt s = .next (haltRun s) := rfl

/-! Setting the flags commutes with every update of another piece of the state; `setFlags` is moved outwards. -/

@[simp] theorem setFlags_self (s : State) : setFlags s.flags s = s := rfl

@[simp] theorem setFlags_setFlags (f g : Flags) (s : State) : setFlags f (setFlags g s) = setFlags f s := rfl

@[simp] theorem writeReg_setFlags (i : RegIdx) (v : Word) (f : Flags) (s : State) :
    writeReg i v (setFlags f s) = setFlags f (writeReg i v s) := rfl

@[simp] theorem storeByte_setFlags (k : Nat) (v : Byte) (f : Flags) (s : State) :
    storeByte k v (setFlags f s) = setFlags f (storeByte k v s) := rfl

@[simp] theorem advance_setFlags (n : Nat) (f : Flags) (s : State) :
    advance n (setFlags f s) = setFlags f (advance n s) := rfl

@[simp] theorem raise_setFlags (k : Cause) (f : Flags) (s : State) :
    raise k (setFlags f s) = setFlags f (raise k s) := rfl

@[simp] theorem haltRun_setFlags (f : Flags) (s : State) : haltRun (setFlags f s) = setFlags f (haltRun s) := rfl

@[simp] theorem branch_setFlags (c : Bool) (disp : Word) (f : Flags) (s : State) :
    branch c disp (setFlags f s) = setFlags f (branch c disp s) := by
  cases c <;> rfl

/-- No earlier flag survives an arithmetic write-back (R104). -/
@[simp] theorem writeArith_setFlags (d : RegIdx) (i : Wide) (f : Flags) (s : State) :
    writeArith d i (setFlags f s) = writeArith d i s := rfl

/-! Flags carried through: what an instruction does with other flags is the same but for the flags, which it keeps. -/

/-- From `s` and from `s` with the flags `f`, the instruction does the same and carries the flags through. -/
def CarriesFlags (i : Instr) (f : Flags) (s : State) : Prop :=
  ∀ t, exec i s = .next t → exec i (setFlags f s) = .next (setFlags f t)

/-- An instruction that carries a state's own flags through keeps them. -/
theorem CarriesFlags.flags_eq {i : Instr} {s t : State} (hc : CarriesFlags i s.flags s) (h : exec i s = .next t) :
    t.flags = s.flags := by
  have hsame : exec i s = .next (setFlags s.flags t) := hc t h
  have ht : t = setFlags s.flags t := Host.Outcome.next.inj (h.symm.trans hsame)
  rw [ht, setFlags_flags]

/-- The register form carries the flags through when the work it guards does. -/
theorem withRegs_setFlags {a b : Byte} {f : Flags} {s t : State} {k k' : RegIdx → RegIdx → State}
    (hk : ∀ i j, k' i j = setFlags f (k i j)) (h : withRegs a b s k = .next t) :
    withRegs a b (setFlags f s) k' = .next (setFlags f t) := by
  obtain ⟨i, j, rfl, rfl, rfl⟩ | ⟨hout, rfl⟩ := withRegs_cases h
  · rw [withRegs_regBytes, hk]
  · rw [withRegs_out_of_range hout, raise_setFlags]

theorem withReg_setFlags {a : Byte} {f : Flags} {s t : State} {k k' : RegIdx → State}
    (hk : ∀ i, k' i = setFlags f (k i)) (h : withReg a s k = .next t) :
    withReg a (setFlags f s) k' = .next (setFlags f t) := by
  obtain ⟨i, rfl, rfl⟩ | ⟨hout, rfl⟩ := withReg_cases h
  · rw [withReg_regByte, hk]
  · rw [withReg_out_of_range hout, raise_setFlags]

/-- The instructions that neither read nor write a flag: all but `A`, `U` and the branches (R18). -/
theorem exec_carriesFlags {i : Instr} (hadd : ∀ a b, i ≠ .add a b) (hsub : ∀ a b, i ≠ .sub a b)
    (hbe : ∀ disp, i ≠ .be disp) (hbn : ∀ disp, i ≠ .bn disp) (hbl : ∀ disp, i ≠ .bl disp) (f : Flags) (s : State) :
    CarriesFlags i f s := by
  intro t h
  cases i with
  | store ptr val => exact withRegs_setFlags (by simp) h
  | load ptr dst => exact withRegs_setFlags (by simp) h
  | movr dst src => exact withRegs_setFlags (by simp) h
  | movi dst imm8 => exact withReg_setFlags (by simp) h
  | halt =>
    cases h
    exact exec_halt _
  | add dst src => exact absurd rfl (hadd dst src)
  | sub dst src => exact absurd rfl (hsub dst src)
  | be disp => exact absurd rfl (hbe disp)
  | bn disp => exact absurd rfl (hbn disp)
  | bl disp => exact absurd rfl (hbl disp)

/-! The branches read the flags through their conditions alone. -/

theorem condEqual_congr {f g : Flags} (hz : f.z = g.z) : condEqual f = condEqual g := hz

theorem condNotEqual_congr {f g : Flags} (hz : f.z = g.z) : condNotEqual f = condNotEqual g :=
  congrArg (!·) hz

theorem condLess_congr {f g : Flags} (hn : f.n = g.n) (ho : f.o = g.o) : condLess f = condLess g := by
  simp [condLess, hn, ho]

theorem be_carriesFlags {f : Flags} {s : State} (disp : Word) (hz : f.z = s.flags.z) : CarriesFlags (.be disp) f s := by
  intro t h
  cases h
  rw [exec_be, setFlags_flags, condEqual_congr hz, branch_setFlags]

theorem bn_carriesFlags {f : Flags} {s : State} (disp : Word) (hz : f.z = s.flags.z) : CarriesFlags (.bn disp) f s := by
  intro t h
  cases h
  rw [exec_bn, setFlags_flags, condNotEqual_congr hz, branch_setFlags]

theorem bl_carriesFlags {f : Flags} {s : State} (disp : Word) (hn : f.n = s.flags.n) (ho : f.o = s.flags.o) :
    CarriesFlags (.bl disp) f s := by
  intro t h
  cases h
  rw [exec_bl, setFlags_flags, condLess_congr hn ho, branch_setFlags]

/-! The writers. -/

/-- Every instruction but `A` and `U` keeps the flags (R18, R104). -/
theorem exec_keeps_flags {i : Instr} {s t : State} (h : exec i s = .next t) (hadd : ∀ a b, i ≠ .add a b)
    (hsub : ∀ a b, i ≠ .sub a b) : t.flags = s.flags := by
  refine CarriesFlags.flags_eq ?_ h
  cases i with
  | be disp => exact be_carriesFlags disp rfl
  | bn disp => exact bn_carriesFlags disp rfl
  | bl disp => exact bl_carriesFlags disp rfl rfl
  | add dst src => exact absurd rfl (hadd dst src)
  | sub dst src => exact absurd rfl (hsub dst src)
  | store | load | movr | movi | halt => exact exec_carriesFlags (by simp) (by simp) (by simp) (by simp) (by simp) _ s

theorem add_setFlags (d r : RegIdx) (f : Flags) (s : State) :
    exec (.add (regByte d) (regByte r)) (setFlags f s) = exec (.add (regByte d) (regByte r)) s := by
  simp [exec_add]

theorem sub_setFlags (d r : RegIdx) (f : Flags) (s : State) :
    exec (.sub (regByte d) (regByte r)) (setFlags f s) = exec (.sub (regByte d) (regByte r)) s := by
  simp [exec_sub]

/-- Settles O30: each instruction but `A` and `U` carries through flags that agree on what it reads, and `A` and `U` replace all
three. -/
theorem flagWritersAndReaders : Obligations.FlagWritersAndReaders := by
  refine ⟨fun i s t f h hadd hsub => ⟨exec_keeps_flags h hadd hsub, fun hbe hbn hbl => ?_⟩, fun d r s f => ?_,
    fun s disp f => ?_⟩
  · exact exec_carriesFlags hadd hsub hbe hbn hbl f s t h
  · exact ⟨add_setFlags d r f s, sub_setFlags d r f s⟩
  · exact ⟨be_carriesFlags disp, bn_carriesFlags disp, bl_carriesFlags disp⟩

end Sys2Proof.Machine
end

section
/-! SUPPORT. The proofs about the memories (20_memory.md): no run changes the code memory, and a data byte holds what the most recent
store to it wrote. -/

namespace Sys2Proof.Machine

/-! What holds of every state an operand form can answer. -/

/-- What holds after the work a two-register form guards and after the raise holds of every state it answers. -/
theorem withRegs_ensures {P : State → Prop} {a b : Byte} {s t : State} {k : RegIdx → RegIdx → State}
    (h : withRegs a b s k = .next t) (hk : ∀ i j, P (k i j)) (hr : P (raise .registerIndexOutOfRange s)) : P t := by
  obtain ⟨i, j, -, -, rfl⟩ | ⟨-, rfl⟩ := withRegs_cases h
  · exact hk i j
  · exact hr

theorem withReg_ensures {P : State → Prop} {a : Byte} {s t : State} {k : RegIdx → State}
    (h : withReg a s k = .next t) (hk : ∀ i, P (k i)) (hr : P (raise .registerIndexOutOfRange s)) : P t := by
  obtain ⟨i, -, rfl⟩ | ⟨-, rfl⟩ := withReg_cases h
  · exact hk i
  · exact hr

/-! The code memory. -/

theorem codeSame_of_eq {s t : State} (hsize : t.codeSize = s.codeSize) (hcode : t.code = s.code) : codeSame s t :=
  ⟨hsize, fun a => congrArg (Memory.read · a) hcode⟩

theorem codeSame_refl (s : State) : codeSame s s := ⟨rfl, fun _ => rfl⟩

theorem codeSame_trans {s t u : State} (hst : codeSame s t) (htu : codeSame t u) : codeSame s u := by
  obtain ⟨hsize, hbytes⟩ := hst
  obtain ⟨hsize', hbytes'⟩ := htu
  exact ⟨hsize'.trans hsize, fun a => (hbytes' a).trans (hbytes a)⟩

theorem raise_keeps_code (k : Cause) (s : State) : codeSame s (raise k s) := codeSame_of_eq rfl rfl

/-- No instruction writes the code memory (R42). -/
theorem exec_keeps_code {i : Instr} {s t : State} (h : exec i s = .next t) : codeSame s t := by
  cases i with
  | store | load | add | sub | movr =>
    exact withRegs_ensures h (fun _ _ => codeSame_of_eq rfl rfl) (raise_keeps_code _ s)
  | movi => exact withReg_ensures h (fun _ => codeSame_of_eq rfl rfl) (raise_keeps_code _ s)
  | be | bn | bl =>
    cases h
    exact codeSame_of_eq (branch_codeSize _ _ s) (branch_code _ _ s)
  | halt =>
    cases h
    exact codeSame_of_eq rfl rfl

theorem step_keeps_code {s t : State} (h : step s = .next t) : codeSame s t := by
  obtain ⟨-, ⟨i, -, hexec⟩ | ⟨k, -, rfl⟩⟩ := step_cases h
  · exact exec_keeps_code hexec
  · exact raise_keeps_code k s

/-- Settles O35: having the same code is reflexive and transitive, and every step keeps it. -/
theorem codeMemoryNeverChanges : Obligations.CodeMemoryNeverChanges := fun _ _ _ hrun =>
  runFor_keeps codeSame_refl (fun _ _ _ => codeSame_trans) (fun _ _ => step_keeps_code) hrun

/-! Fetching an instruction whose bytes stand at the pc. -/

theorem map_fetchByte_instrOffsets (s : State) (p n : Nat) :
    (instrOffsets p n).map (fetchByte s) = Memory.readBytes s.code p n := by
  induction n generalizing p with
  | zero => rfl
  | succ n ih => exact congrArg (fetchByte s p :: ·) (ih (p + 1))

theorem decodeAt_eq_ok_iff {s : State} {p n : Nat} {i : Instr} : decodeAt s (instrOffsets p n) = .ok i ↔
    ∃ rest, decode (Memory.readBytes s.code p n) = .ok (i, rest) := by
  rw [decodeAt, map_fetchByte_instrOffsets]
  rcases decode (Memory.readBytes s.code p n) with e | ⟨j, rest⟩ <;> simp

/-- A step runs the instruction whose bytes stand whole at the pc (R71). -/
theorem step_of_placed {s : State} {b : Byte} {bs rest : List Byte} {op : Opcode} {i : Instr}
    (hplaced : placedAt s (b :: bs)) (hop : opcodeOf b = some op) (hlen : (b :: bs).length = opcodeLen op)
    (hdec : decode (b :: bs) = .ok (i, rest)) : step s = exec i s := by
  obtain ⟨hrun, hfits, hbytes⟩ := hplaced
  have hhead : fetchByte s s.pc.toNat = b := (List.cons.inj hbytes).1
  rw [hlen] at hfits hbytes
  rw [← hbytes] at hdec
  have hpc : ¬ s.codeSize ≤ s.pc.toNat := by
    have : 0 < opcodeLen op := hlen ▸ Nat.succ_pos bs.length
    omega
  refine step_of_fetched hrun ?_
  have hfetch : (fetchInstr s).instr = decodeAt s (instrOffsets s.pc.toNat (opcodeLen op)) := by
    simp [fetchInstr, hpc, hhead, hop, Nat.not_lt.mpr hfits]
  exact hfetch.trans (decodeAt_eq_ok_iff.mpr ⟨rest, hdec⟩)

theorem step_of_placed_store {s : State} {ptr val : Byte} (h : placedAt s [0x53, ptr, val]) :
    step s = exec (.store ptr val) s :=
  step_of_placed h (op := .store) rfl rfl rfl

theorem step_of_placed_load {s : State} {ptr dst : Byte} (h : placedAt s [0x4C, ptr, dst]) :
    step s = exec (.load ptr dst) s :=
  step_of_placed h (op := .load) rfl rfl rfl

/-! Conversely, a step that runs an `S` has the bytes of it at the pc. -/

theorem opcodeTag_of_opcodeOf {b : Byte} {op : Opcode} (h : opcodeOf b = some op) : b = opcodeTag op := by
  unfold opcodeOf at h
  split_ifs at h with hb hb hb hb hb hb hb hb
  all_goals
    cases h
    exact hb

theorem decodeRR_eq_ok {mk : Byte → Byte → Instr} {bs rest : List Byte} {i : Instr}
    (h : decodeRR mk bs = .ok (i, rest)) : ∃ a b, bs = a :: b :: rest ∧ i = mk a b := by
  match bs, h with
  | a :: b :: _, rfl => exact ⟨a, b, rfl, rfl⟩

/-- Format BR gives a branch only. -/
theorem decodeBR_ne_store {bs rest : List Byte} {ptr val : Byte} : decodeBR bs ≠ .ok (.store ptr val, rest) := by
  unfold decodeBR
  split
  · split_ifs <;> simp
  · simp

/-- Only the bytes of an `S` decode to it (R58, R59). -/
theorem bytes_of_decode_store {bs rest : List Byte} {ptr val : Byte} (h : decode bs = .ok (.store ptr val, rest)) :
    bs = 0x53 :: ptr :: val :: rest := by
  cases bs with
  | nil => cases h
  | cons b bs =>
    rw [decode] at h
    cases hop : opcodeOf b with
    | none => simp [hop] at h
    | some op =>
      simp only [hop] at h
      cases op with
      | store =>
        obtain ⟨_, _, rfl, hi⟩ := decodeRR_eq_ok h
        cases hi
        rw [opcodeTag_of_opcodeOf hop]
        rfl
      | load | add | sub | movr | movi =>
        obtain ⟨_, _, -, hi⟩ := decodeRR_eq_ok h
        cases hi
      | branch => exact absurd h decodeBR_ne_store
      | halt => cases h

/-- A running state that fetches an `S` has its three bytes at the pc. -/
theorem placed_of_fetched_store {s : State} {ptr val : Byte} (hrun : s.status = .running)
    (hfetch : (fetchInstr s).instr = .ok (.store ptr val)) : placedAt s [0x53, ptr, val] := by
  obtain ⟨-, hf⟩ | ⟨-, -, hf⟩ | ⟨_, -, -, -, hf⟩ | ⟨op, -, hop, hfits, hf⟩ := fetchInstr_cases s <;>
    rw [hf] at hfetch
  case inr.inr.inr =>
    obtain ⟨rest, hdec⟩ := decodeAt_eq_ok_iff.mp hfetch
    have hbytes := bytes_of_decode_store hdec
    have hhead : fetchByte s s.pc.toNat = 0x53 := by
      cases op <;> exact (List.cons.inj hbytes).1
    obtain rfl : op = .store := by
      rw [hhead] at hop
      exact (Option.some.inj hop).symm
    obtain rfl : rest = [] := by
      have hlen := congrArg List.length hbytes
      simpa [opcodeLen, Memory.readBytes] using hlen
    exact ⟨hrun, hfits, hbytes⟩
  all_goals cases hfetch

/-! The data memory: what one step does to it. -/

/-- The data memory after an instruction: an `S` writes one byte of it, nothing else writes it (R33). -/
theorem exec_data_cases {i : Instr} {s t : State} (h : exec i s = .next t) :
    t.data = s.data ∨ ∃ p v, i = .store (regByte p) (regByte v) ∧
      t = advance 3 (storeByte (dataOffset (readReg p s)) (lowByte (readReg v s)) s) := by
  cases i with
  | store ptr val =>
    obtain ⟨p, v, rfl, rfl, rfl⟩ | ⟨-, rfl⟩ := withRegs_cases h
    · exact .inr ⟨p, v, rfl, rfl⟩
    · exact .inl rfl
  | load | add | sub | movr =>
    exact .inl (withRegs_ensures (P := fun t => t.data = s.data) h (fun _ _ => rfl) rfl)
  | movi => exact .inl (withReg_ensures (P := fun t => t.data = s.data) h (fun _ => rfl) rfl)
  | be | bn | bl =>
    cases h
    exact .inl (branch_data _ _ s)
  | halt =>
    cases h
    exact .inl rfl

/-- The data memory after a step: the `S` at the pc writes one byte of it, or it is unchanged. -/
theorem step_data_cases {s t : State} (h : step s = .next t) :
    t.data = s.data ∨ ∃ p v, placedAt s [0x53, regByte p, regByte v] ∧
      t = advance 3 (storeByte (dataOffset (readReg p s)) (lowByte (readReg v s)) s) := by
  obtain ⟨hrun, ⟨i, hfetch, hexec⟩ | ⟨k, -, rfl⟩⟩ := step_cases h
  · obtain hsame | ⟨p, v, rfl, ht⟩ := exec_data_cases hexec
    · exact .inl hsame
    · exact .inr ⟨p, v, placed_of_fetched_store hrun hfetch, ht⟩
  · exact .inl rfl

theorem loadByte_step_of_store {s t : State} {k : Nat} {v : RegIdx} (hstore : storesAt s k v) (h : step s = .next t) :
    loadByte k t = lowByte (readReg v s) := by
  obtain ⟨p, hplaced, rfl⟩ := hstore
  rw [step_of_placed_store hplaced, exec_store, withRegs_regBytes] at h
  cases h
  simp

theorem loadByte_step_of_no_store {s t : State} {k : Nat} (hno : ∀ v, ¬ storesAt s k v) (h : step s = .next t) :
    loadByte k t = loadByte k s := by
  obtain hsame | ⟨p, v, hplaced, rfl⟩ := step_data_cases h
  · exact congrArg (Memory.read · k) hsame
  · have hne : k ≠ dataOffset (readReg p s) := fun hk => hno v ⟨p, hplaced, hk.symm⟩
    rw [loadByte_advance, loadByte_storeByte_other _ _ hne]

/-! The data memory along a run. -/

/-- A run cut in two. -/
theorem runFor_add {m : Nat} {s u : State} (n : Nat) (h : runFor m s = .next u) : runFor (m + n) s = runFor n u := by
  induction m generalizing s with
  | zero =>
    cases h
    rw [Nat.zero_add]
  | succ m ih =>
    obtain ⟨w, hw, hwu⟩ := runFor_succ_cases h
    rw [Nat.add_right_comm, runFor_succ_of_step _ hw, ih hwu]

/-- Steps that store nothing at an offset leave its byte as it was. -/
theorem loadByte_run_of_no_store {n : Nat} {s t : State} {k : Nat} (hrun : runFor n s = .next t)
    (hno : ∀ m u v, m < n → runFor m s = .next u → ¬ storesAt u k v) : loadByte k t = loadByte k s := by
  induction n generalizing t with
  | zero =>
    cases hrun
    rfl
  | succ n ih =>
    obtain ⟨u, hu, hut⟩ := runFor_last hrun
    calc loadByte k t
      _ = loadByte k u := loadByte_step_of_no_store (fun v => hno n u v n.lt_succ_self hu) hut
      _ = loadByte k s := ih hu (fun m w v hm => hno m w v (Nat.lt_succ_of_lt hm))

/-- The byte at an offset is what the last step that stored there stored: the run is cut after that step. -/
theorem loadByte_run_of_last_store {n m : Nat} {s t u : State} {k : Nat} {v : RegIdx} (hrun : runFor n s = .next t)
    (hm : m < n) (hu : runFor m s = .next u) (hstore : storesAt u k v)
    (hlast : ∀ j w x, m < j → j < n → runFor j s = .next w → ¬ storesAt w k x) : loadByte k t = lowByte (readReg v u) := by
  obtain ⟨r, rfl⟩ := Nat.exists_eq_add_of_lt hm
  rw [Nat.add_assoc, runFor_add (r + 1) hu] at hrun
  obtain ⟨u', hstep, hrest⟩ := runFor_succ_cases hrun
  have hu' : runFor (m + 1) s = .next u' := runFor_snoc hu hstep
  calc loadByte k t
    _ = loadByte k u' := loadByte_run_of_no_store hrest fun j w x hj hw =>
        hlast (m + 1 + j) w x (by omega) (by omega) ((runFor_add j hu').trans hw)
    _ = lowByte (readReg v u) := loadByte_step_of_store hstore hstep

/-! The data memory at the start. -/

theorem Memory.read_ofBytes (a k : Nat) (bs : List Byte) :
    Memory.read (Memory.ofBytes a bs) (a + k) = bs[k]?.getD (unlistedByte (a + k)) := by
  induction bs generalizing a k with
  | nil => rfl
  | cons b bs ih =>
    cases k with
    | zero =>
      by_cases hb : b = unlistedByte a
      · have habove : ∀ c ∈ Memory.ofBytes (a + 1) bs, c.1 ≠ a := fun c hc => (Nat.ne_of_lt (Memory.ofBytes_ge hc)).symm
        simp [Memory.ofBytes, hb, Memory.read_of_not_listed habove]
      · simp [Memory.ofBytes, hb, Memory.read]
    | succ k =>
      have htail := ih (a + 1) k
      rw [Nat.add_assoc, Nat.add_comm 1 k] at htail
      by_cases hb : b = unlistedByte a <;> simpa [Memory.ofBytes, hb, Memory.read] using htail

/-- The data bytes a run starts with (R26). -/
theorem loadByte_start (h : HostInputs) (k : Nat) : loadByte k (State.start h) = initialDataByte h k := by
  have hread (bs : List Byte) : Memory.read (Memory.ofBytes 0 bs) k = bs[k]?.getD 0 := by
    simpa [unlistedByte] using Memory.read_ofBytes 0 k bs
  unfold loadByte State.start initialData initialDataByte
  cases h.dataInit with
  | none => rfl
  | some v => exact hread v.toList

/-- An `L` at the pc loads the byte its pointer selects, zero-extended (R92). -/
theorem step_load {s : State} {p d : RegIdx} (h : placedAt s [0x4C, regByte p, regByte d]) :
    ∃ t, step s = .next t ∧ readReg d t = zextByte (loadByte (dataOffset (readReg p s)) s) := by
  rw [step_of_placed_load h, exec_load, withRegs_regBytes]
  exact ⟨_, rfl, by simp⟩

theorem zextByte_toNat (b : Byte) : (zextByte b).toNat = b.toNat :=
  BitVec.toNat_setWidth_of_le (by decide)

/-- Settles O34: a store makes its byte the stored one, every other step keeps it, and a load reads it. -/
theorem loadReturnsTheMostRecentStore : Obligations.LoadReturnsTheMostRecentStore := by
  intro h n t k _ hrun
  refine ⟨fun hno => ?_, fun m u v hm hu hstore hlast => ?_, fun p d hplaced hk => ?_⟩
  · exact (loadByte_run_of_no_store hrun hno).trans (loadByte_start h k)
  · exact loadByte_run_of_last_store hrun hm hu hstore hlast
  · obtain ⟨t', hstep, hd⟩ := step_load hplaced
    exact ⟨t', hstep, by rw [hd, hk, zextByte_toNat]⟩

end Sys2Proof.Machine
end

section
/-! SUPPORT. The proofs about the encoding (30_encoding.md): the opcode map, the decoder row by row, and the steps that find no
instruction at the pc. -/

namespace Sys2Proof.Machine

/-! The opcode map and its inverse, the tags (R52, R59). -/

@[simp] theorem opcodeOf_opcodeTag (op : Opcode) : opcodeOf (opcodeTag op) = some op := by
  cases op <;> rfl

theorem opcodeOf_eq_some_iff {b : Byte} {op : Opcode} : opcodeOf b = some op ↔ b = opcodeTag op :=
  ⟨opcodeTag_of_opcodeOf, fun h => h ▸ opcodeOf_opcodeTag op⟩

theorem opcodeTag_mem_opcodeBytes (op : Opcode) : opcodeTag op ∈ opcodeBytes := by
  cases op <;> decide

/-- Every byte that is not listed as an opcode is illegal, and no other is (R61). -/
theorem opcodeOf_eq_none_iff {b : Byte} : opcodeOf b = none ↔ b ∉ opcodeBytes := by
  refine ⟨fun hnone hmem => ?_, fun hmem => ?_⟩
  · have hlisted : ∀ c ∈ opcodeBytes, opcodeOf c ≠ none := by decide
    exact hlisted b hmem hnone
  · cases hop : opcodeOf b with
    | none => rfl
    | some op => exact absurd (opcodeOf_eq_some_iff.mp hop ▸ opcodeTag_mem_opcodeBytes op) hmem

/-- Settles O5: the listed opcodes by evaluation, the other bytes by the opcode map. -/
theorem opcodeFixesTheLength : Obligations.OpcodeFixesTheLength :=
  ⟨rfl, rfl, by decide, fun _ => opcodeOf_eq_none_iff.mpr⟩

/-! The displacement of a branch (R56). -/

/-- Appending low bits multiplies the high ones by the weight of their place. -/
theorem toNat_append_eq_add {m n : Nat} (hi : BitVec m) (lo : BitVec n) :
    (hi ++ lo).toNat = 2 ^ n * hi.toNat + lo.toNat := by
  rw [BitVec.toNat_append, ← Nat.shiftLeft_add_eq_or_of_lt lo.isLt, Nat.shiftLeft_eq, Nat.mul_comm]

theorem le32_toNat (b0 b1 b2 b3 : Byte) : (le32 b0 b1 b2 b3).toNat =
    b0.toNat + 256 * b1.toNat + 65536 * b2.toNat + 16777216 * b3.toNat := by
  simp only [le32, toNat_append_eq_add]
  omega

/-- The model's signed reading of a word is the spec's `signed32` of its number (R8). -/
theorem toInt_eq_signed32 (w : Word) : w.toInt = signed32 w.toNat := by
  rw [BitVec.toInt_eq_toNat_cond, signed32]
  split_ifs <;> omega

theorem le32_toInt (b0 b1 b2 b3 : Byte) : (le32 b0 b1 b2 b3).toInt =
    signed32 (b0.toNat + 256 * b1.toNat + 65536 * b2.toNat + 16777216 * b3.toNat) := by
  rw [toInt_eq_signed32, le32_toNat]

/-! The decoder, row by row of the opcode map (R59), and where it finds no instruction. -/

section
variable (a b d0 d1 d2 d3 : Byte) (rest : List Byte)

theorem decode_store : decode (0x53 :: a :: b :: rest) = .ok (.store a b, rest) := rfl
theorem decode_load : decode (0x4C :: a :: b :: rest) = .ok (.load a b, rest) := rfl
theorem decode_add : decode (0x41 :: a :: b :: rest) = .ok (.add a b, rest) := rfl
theorem decode_sub : decode (0x55 :: a :: b :: rest) = .ok (.sub a b, rest) := rfl
theorem decode_movr : decode (0x4D :: a :: b :: rest) = .ok (.movr a b, rest) := rfl
theorem decode_movi : decode (0x49 :: a :: b :: rest) = .ok (.movi a b, rest) := rfl
theorem decode_halt : decode (0x48 :: rest) = .ok (.halt, rest) := rfl

theorem decode_be :
    decode (0x42 :: 0x45 :: d0 :: d1 :: d2 :: d3 :: rest) = .ok (.be (le32 d0 d1 d2 d3), rest) := rfl
theorem decode_bn :
    decode (0x42 :: 0x4E :: d0 :: d1 :: d2 :: d3 :: rest) = .ok (.bn (le32 d0 d1 d2 d3), rest) := rfl
theorem decode_bl :
    decode (0x42 :: 0x4C :: d0 :: d1 :: d2 :: d3 :: rest) = .ok (.bl (le32 d0 d1 d2 d3), rest) := rfl

/-- A whole branch with a condition byte that is no tag (R57, R63). -/
theorem decode_illegalCondition {c : Byte} (hc : c ∉ conditionBytes) :
    decode (0x42 :: c :: d0 :: d1 :: d2 :: d3 :: rest) = .error (.illegalCondition c) := by
  obtain ⟨hE, hN, hL⟩ : c ≠ condTagE ∧ c ≠ condTagN ∧ c ≠ condTagL := by
    simpa [conditionBytes, condTagE, condTagN, condTagL] using hc
  calc decode (0x42 :: c :: d0 :: d1 :: d2 :: d3 :: rest)
    _ = decodeBR (c :: d0 :: d1 :: d2 :: d3 :: rest) := rfl
    _ = .error (.illegalCondition c) := by simp [decodeBR, hE, hN, hL]

/-- A byte that is no opcode, whatever follows it (R61, R62). -/
theorem decode_illegalOpcode {op : Byte} (hop : op ∉ opcodeBytes) : decode (op :: rest) = .error (.illegalOpcode op) := by
  simp [decode, opcodeOf_eq_none_iff.mpr hop]

end

/-- Settles O3, row by row; the displacement is the little-endian word of the last four bytes. -/
theorem opcodeMapDecodesEveryRow : Obligations.OpcodeMapDecodesEveryRow := by
  refine ⟨fun a b rest => ?_, fun d0 d1 d2 d3 rest => ?_, fun _ rest hop => decode_illegalOpcode rest hop⟩
  · exact ⟨decode_store a b rest, decode_load a b rest, decode_add a b rest, decode_sub a b rest, decode_movr a b rest,
      decode_movi a b rest, decode_halt rest⟩
  · exact ⟨le32 d0 d1 d2 d3, le32_toInt d0 d1 d2 d3, decode_be d0 d1 d2 d3 rest, decode_bn d0 d1 d2 d3 rest,
      decode_bl d0 d1 d2 d3 rest, fun _ hc => decode_illegalCondition d0 d1 d2 d3 rest hc⟩

/-! A running step that finds no instruction at the pc. -/

/-- The second check of R71: an illegal opcode byte inside the code memory. -/
theorem fetchInstr_of_illegalOpcode {s : State} (hpc : s.pc.toNat < s.codeSize)
    (hop : opcodeOf (fetchByte s s.pc.toNat) = none) : (fetchInstr s).instr = .error .illegalInstruction := by
  obtain ⟨hout, -⟩ | ⟨-, -, hf⟩ | ⟨op, -, hsome, -⟩ | ⟨op, -, hsome, -⟩ := fetchInstr_cases s
  · omega
  · rw [hf]
  all_goals simp [hop] at hsome

/-- Settles O8: the fetch answers the cause, and raising it sets the status alone. -/
theorem illegalOpcodeEndsTheRun : Obligations.IllegalOpcodeEndsTheRun := fun _ hrun hpc hop =>
  step_of_cause hrun (fetchInstr_of_illegalOpcode hpc (opcodeOf_eq_none_iff.mpr hop))

/-- An opcode whose whole instruction lies inside the code memory passes the first three checks of R71. -/
theorem fetchInstr_of_fits {s : State} {op : Opcode} (hop : opcodeOf (fetchByte s s.pc.toNat) = some op)
    (hfits : s.pc.toNat + opcodeLen op ≤ s.codeSize) :
    (fetchInstr s).instr = decodeAt s (instrOffsets s.pc.toNat (opcodeLen op)) := by
  have hlen : 0 < opcodeLen op := by cases op <;> decide
  obtain ⟨hout, -⟩ | ⟨-, hnone, -⟩ | ⟨op', -, hop', hcut, -⟩ | ⟨op', -, hop', -, hf⟩ := fetchInstr_cases s
  · omega
  · simp [hop] at hnone
  all_goals obtain rfl := Option.some.inj (hop.symm.trans hop')
  · omega
  · rw [hf]

theorem decodeAt_of_decode_error {s : State} {p n : Nat} {e : DecodeError}
    (h : decode (Memory.readBytes s.code p n) = .error e) : decodeAt s (instrOffsets p n) = .error (decodeCause e) := by
  rw [decodeAt, map_fetchByte_instrOffsets, h]

/-- A step raises the cause of the decoding error of the bytes that stand whole at the pc (R71). -/
theorem step_of_placed_error {s : State} {b : Byte} {bs : List Byte} {op : Opcode} {e : DecodeError}
    (hplaced : placedAt s (b :: bs)) (hop : opcodeOf b = some op) (hlen : (b :: bs).length = opcodeLen op)
    (hdec : decode (b :: bs) = .error e) : step s = .next (raise (decodeCause e) s) := by
  obtain ⟨hrun, hfits, hbytes⟩ := hplaced
  have hhead : fetchByte s s.pc.toNat = b := (List.cons.inj hbytes).1
  rw [hlen] at hfits hbytes
  have hfetch := fetchInstr_of_fits (by rw [hhead, hop]) hfits
  exact step_of_cause hrun (hfetch.trans (decodeAt_of_decode_error (hbytes ▸ hdec)))

theorem step_of_placed_illegalCondition {s : State} {c d0 d1 d2 d3 : Byte}
    (hplaced : placedAt s [0x42, c, d0, d1, d2, d3]) (hc : c ∉ conditionBytes) :
    step s = .next (raise .illegalInstruction s) :=
  step_of_placed_error hplaced (op := .branch) rfl rfl (decode_illegalCondition d0 d1 d2 d3 [] hc)

/-- Settles O9: whether bytes stand at the pc does not depend on the flags, so the step raises under every flag setting. -/
theorem illegalConditionEndsTheRun : Obligations.IllegalConditionEndsTheRun := by
  intro s c d0 d1 d2 d3 hplaced hc f
  have hplaced' : placedAt (setFlags f s) [0x42, c, d0, d1, d2, d3] := hplaced
  exact step_of_placed_illegalCondition hplaced' hc

end Sys2Proof.Machine
end

section
/-! SUPPORT. The proofs about load and store (41_load_store.md): what `S` and `L` do and leave alone, what they raise, and the round
trip through a data byte. -/

namespace Sys2Proof.Machine

/-! The outcomes of the dispatch checks that every instruction with two register fields shares (R72, R74, R76). -/

/-- A running step whose instruction does not lie whole inside the code memory raises `ProgramCounterOutOfRange` (R72, R74). -/
theorem step_of_cutShort {s : State} {b : Byte} {op : Opcode} (hop : opcodeOf b = some op)
    (hcut : cutShort s b (opcodeLen op)) : step s = .next (raise .programCounterOutOfRange s) := by
  obtain ⟨hrun, hout | ⟨hpc, hhead, hshort⟩⟩ := hcut
  · exact step_of_cause hrun (by simp [fetchInstr, hout])
  · exact step_of_cause hrun (by simp [fetchInstr, Nat.not_le.mpr hpc, hhead, hop, hshort])

/-- An opcode of three bytes whose step is the two-register form raises what that form and the bounds raise, and nothing else. -/
theorem raisesLikeTwoRegisters_of_withRegs {b : Byte} {op : Opcode} (hop : opcodeOf b = some op) (hlen : opcodeLen op = 3)
    (hstep : ∀ {s x y}, placedAt s [b, x, y] → ∃ k, step s = withRegs x y s k) : raisesLikeTwoRegisters b := by
  refine fun s => ⟨fun hcut => ?_, fun x y hplaced hno => ?_⟩
  · exact step_of_cutShort hop (hlen ▸ hcut)
  · obtain ⟨k, hk⟩ := hstep hplaced
    exact hk.trans (withRegs_out_of_range hno s k)

/-! The low byte of a register and the data offset it selects (R32, R33). -/

theorem lowByte_toNat (v : Word) : (lowByte v).toNat = v.toNat % 256 := by
  simp [lowByte]

/-- Reading the low byte signed and then reducing it modulo 256 gives the byte back, so bits 31 to 8 do not count. -/
theorem dataOffset_eq_mod (p : Word) : dataOffset p = p.toNat % 256 := by
  have hmod : effectiveAddress p % (Config.dataSize : Int) = ((p.toNat % 256 : Nat) : Int) := calc
    _ = ((p.toNat % 256 : Nat) : Int).bmod 256 % (256 : Nat) := by
      rw [effectiveAddress, BitVec.toInt_eq_toNat_bmod, lowByte_toNat, Config.dataSize]
    _ = ((p.toNat % 256 : Nat) : Int) % (256 : Nat) := Int.bmod_emod
    _ = ((p.toNat % 256 : Nat) : Int) := by omega
  exact congrArg Int.toNat hmod

/-! `S` (R91). -/

/-- The state `S` answers. -/
theorem exec_store_regBytes (p v : RegIdx) (s : State) : exec (.store (regByte p) (regByte v)) s =
    .next (advance 3 (storeByte (dataOffset (readReg p s)) (lowByte (readReg v s)) s)) := by
  rw [exec_store, withRegs_regBytes]

theorem store_raisesLikeTwoRegisters : raisesLikeTwoRegisters 0x53 :=
  raisesLikeTwoRegisters_of_withRegs (op := .store) rfl rfl fun h => ⟨_, step_of_placed_store h⟩

/-- Settles O17: reads of the data memory after one byte of it is written; no other piece of the state but the pc is touched. -/
theorem storeWritesOneByte : Obligations.StoreWritesOneByte := by
  refine ⟨fun s p v => ⟨⟨_, exec_store_regBytes p v s, ?stored, fun k hk => ?otherBytes, fun _ => rfl, rfl, rfl,
    codeSame_of_eq rfl rfl, rfl⟩, step_of_placed_store⟩, store_raisesLikeTwoRegisters⟩
  case stored => rw [loadByte_advance, loadByte_storeByte_same, lowByte_toNat]
  case otherBytes => rw [loadByte_advance, loadByte_storeByte_other _ _ hk]

/-! `L` (R92). -/

/-- The state `L` answers. -/
theorem exec_load_regBytes (p d : RegIdx) (s : State) : exec (.load (regByte p) (regByte d)) s =
    .next (advance 3 (writeReg d (zextByte (loadByte (dataOffset (readReg p s)) s)) s)) := by
  rw [exec_load, withRegs_regBytes]

theorem load_raisesLikeTwoRegisters : raisesLikeTwoRegisters 0x4C :=
  raisesLikeTwoRegisters_of_withRegs (op := .load) rfl rfl fun h => ⟨_, step_of_placed_load h⟩

/-- Settles O18: reads of the registers after one of them is written; no other piece of the state but the pc is touched. -/
theorem loadReadsOneByte : Obligations.LoadReadsOneByte := by
  refine ⟨fun s p d => ⟨⟨_, exec_load_regBytes p d s, ?loaded, fun i hi => ?otherRegs,
    ⟨rfl, fun _ => rfl, codeSame_of_eq rfl rfl, rfl⟩, rfl⟩, step_of_placed_load⟩, load_raisesLikeTwoRegisters⟩
  case loaded => rw [readReg_advance, readReg_writeReg_same, zextByte_toNat]
  case otherRegs => rw [readReg_advance, readReg_writeReg_other _ _ hi]

/-! The round trip (R93). -/

/-- Settles O33: pointers of the same low byte select the same offset, so `L` reads the byte `S` left there. -/
theorem storeThenLoadRoundTrip : Obligations.StoreThenLoadRoundTrip := by
  obtain ⟨hstore, -⟩ := storeWritesOneByte
  obtain ⟨hload, -⟩ := loadReadsOneByte
  intro s p v
  obtain ⟨⟨s1, hs1, hstored, -⟩, -⟩ := hstore s p v
  refine ⟨s1, hs1, fun u q d hkept hlow => ?_⟩
  obtain ⟨⟨t, ht, hloaded, -⟩, -⟩ := hload u q d
  have hoffset : dataOffset (readReg q u) = dataOffset (readReg p s) := by
    rw [dataOffset_eq_mod, dataOffset_eq_mod, hlow]
  refine ⟨t, ht, ?_⟩
  calc (readReg d t).toNat
    _ = (loadByte (dataOffset (readReg q u)) u).toNat := hloaded
    _ = (loadByte (dataOffset (readReg p s)) s1).toNat := by rw [hoffset, hkept]
    _ = (readReg v s).toNat % 256 := hstored

end Sys2Proof.Machine
end

section
/-! SUPPORT. The proofs about arithmetic (42_arithmetic.md): the flag engine on the wide intermediate, and what `A` and `U` write, leave
alone and raise. -/

namespace Sys2Proof.Machine

/-! The intermediates are the exact integers (R100). -/

/-- A 64-bit signed operation whose exact result fits does not wrap. -/
theorem bmod_eq_of_word_range {x : Int} (hlo : -2 ^ 32 ≤ x) (hhi : x < 2 ^ 33) : x.bmod (2 ^ 64) = x :=
  Int.bmod_eq_of_le (by omega) (by omega)

/-- A register zero-extended to 64 bits is its number, never negative. -/
theorem toInt_setWidth_word (a : Word) : (a.setWidth 64).toInt = a.toNat := by
  rw [BitVec.toInt_setWidth, bmod_eq_of_word_range] <;> omega

theorem addWide_toInt (a b : Word) : (addWide a b).toInt = (a.toNat : Int) + (b.toNat : Int) := by
  rw [addWide, BitVec.toInt_add, toInt_setWidth_word, toInt_setWidth_word, bmod_eq_of_word_range] <;> omega

theorem subWide_toInt (a b : Word) : (subWide a b).toInt = (a.toNat : Int) - (b.toNat : Int) := by
  rw [subWide, BitVec.toInt_sub, toInt_setWidth_word, toInt_setWidth_word, bmod_eq_of_word_range] <;> omega

/-! The truncated result is the intermediate modulo 2^32 (R8). -/

theorem trunc32_toNat (w : Wide) : ((trunc32 w).toNat : Int) = w.toInt % 2 ^ 32 := by
  have hnat : (trunc32 w).toNat = w.toNat % 2 ^ 32 := BitVec.toNat_setWidth 32 w
  have hsigned := BitVec.toInt_eq_toNat_cond w
  split_ifs at hsigned <;> omega

theorem trunc32_eq_zero_iff {w : Wide} : trunc32 w = 0 ↔ w.toInt % 2 ^ 32 = 0 := by
  rw [← trunc32_toNat, BitVec.toNat_eq]
  exact Int.natCast_eq_zero.symm

theorem trunc32_addWide_toNat (a b : Word) : (trunc32 (addWide a b)).toNat = (a.toNat + b.toNat) % 2 ^ 32 := by
  have h := trunc32_toNat (addWide a b)
  rw [addWide_toInt] at h
  exact_mod_cast h

theorem trunc32_subWide_toNat (a b : Word) :
    ((trunc32 (subWide a b)).toNat : Int) = ((a.toNat : Int) - (b.toNat : Int)) % 2 ^ 32 := by
  rw [trunc32_toNat, subWide_toInt]

/-! The flags of an intermediate (R101 to R103). -/

/-- Zero looks at the whole intermediate, not at the truncated result (R101). -/
theorem computeFlags_z (w : Wide) : (computeFlags w).z = decide (w.toInt = 0) := by
  have h : w = 0 ↔ w.toInt = 0 := BitVec.toInt_inj.symm
  exact (beq_eq_decide w 0).trans (decide_eq_decide.mpr h)

theorem computeFlags_n (w : Wide) : (computeFlags w).n = (trunc32 w).getLsbD 31 :=
  BitVec.msb_eq_getLsbD_last (trunc32 w)

theorem computeFlags_o_iff {w : Wide} : (computeFlags w).o = true ↔ w.extractLsb' 32 32 ≠ 0#32 := bne_iff_ne

/-- Overflow is a set bit above bit 31 (R103). -/
theorem computeFlags_o_iff_bit {w : Wide} :
    (computeFlags w).o = true ↔ ∃ k, 32 ≤ k ∧ k < 64 ∧ w.getLsbD k = true := by
  rw [computeFlags_o_iff, not_iff_comm]
  refine ⟨fun hbits => BitVec.eq_of_getLsbD_eq fun k hk => ?_, fun hzero ⟨k, hlo, hhi, hbit⟩ => ?_⟩
  · simpa [hk] using fun hbit => hbits ⟨32 + k, by omega, by omega, hbit⟩
  · have hk := congrArg (·.getLsbD (k - 32)) hzero
    simp [show k - 32 < 32 by omega, show 32 + (k - 32) = k by omega, hbit] at hk

/-- In signed terms the bits above bit 31 are set for a negative intermediate and for one of 2^32 or more (R103). -/
theorem computeFlags_o_iff_range {w : Wide} : (computeFlags w).o = true ↔ w.toInt < 0 ∨ 2 ^ 32 ≤ w.toInt := by
  have hhigh : (w.extractLsb' 32 32).toNat = w.toNat / 2 ^ 32 := by
    rw [BitVec.extractLsb'_toNat, Nat.shiftRight_eq_div_pow]
    omega
  have hsigned := BitVec.toInt_eq_toNat_cond w
  rw [computeFlags_o_iff, ne_eq, BitVec.toNat_eq, hhigh, BitVec.toNat_zero]
  split_ifs at hsigned <;> omega

/-- `ComputeFlags` in terms of the exact integer (R104). -/
theorem computeFlags_eq (w : Wide) : computeFlags w =
    { z := decide (w.toInt = 0)
      n := (w.toInt % 2 ^ 32).toNat.testBit 31
      o := decide (w.toInt < 0 ∨ 2 ^ 32 ≤ w.toInt) } := by
  have ho : (computeFlags w).o = decide (w.toInt < 0 ∨ 2 ^ 32 ≤ w.toInt) :=
    Bool.eq_iff_iff.mpr (computeFlags_o_iff_range.trans decide_eq_true_iff.symm)
  rw [← computeFlags_z, ← trunc32_toNat, Int.toNat_natCast, ← ho]
  exact congrArg (Flags.mk _ · _) (computeFlags_n w)

/-- The flags of a sum: Overflow is the carry out of bit 31. -/
theorem computeFlags_addWide (a b : Word) : computeFlags (addWide a b) =
    { z := decide (a.toNat + b.toNat = 0)
      n := ((a.toNat + b.toNat) % 2 ^ 32).testBit 31
      o := decide (2 ^ 32 ≤ a.toNat + b.toNat) } := by
  rw [computeFlags_eq, ← trunc32_toNat, Int.toNat_natCast, trunc32_addWide_toNat, addWide_toInt, Flags.mk.injEq,
    decide_eq_decide, decide_eq_decide]
  exact ⟨by omega, rfl, by omega⟩

/-- The flags of a difference: Overflow is the borrow. -/
theorem computeFlags_subWide (a b : Word) : computeFlags (subWide a b) =
    { z := decide ((a.toNat : Int) - (b.toNat : Int) = 0)
      n := (((a.toNat : Int) - (b.toNat : Int)) % 2 ^ 32).toNat.testBit 31
      o := decide ((a.toNat : Int) - (b.toNat : Int) < 0) } := by
  rw [computeFlags_eq, subWide_toInt, Flags.mk.injEq, decide_eq_decide, decide_eq_decide]
  exact ⟨Iff.rfl, rfl, by omega⟩

/-! Zero and the truncated result: they part only where a sum is 2^32 (R101, conflict C3). -/

theorem computeFlags_z_eq_trunc32 {w : Wide} (hlo : -2 ^ 32 < w.toInt) (hhi : w.toInt < 2 ^ 33) (hne : w.toInt ≠ 2 ^ 32) :
    (computeFlags w).z = decide (trunc32 w = 0) := by
  rw [computeFlags_z, decide_eq_decide, trunc32_eq_zero_iff]
  omega

theorem trunc32_zero_and_not_z {w : Wide} (h : w.toInt = 2 ^ 32) : trunc32 w = 0 ∧ (computeFlags w).z = false := by
  rw [trunc32_eq_zero_iff, computeFlags_z, h]
  decide

/-- Settles O28: each flag of any intermediate, then the two intermediates as exact integers. -/
theorem flagEngineOnTheIntermediate : Obligations.FlagEngineOnTheIntermediate := by
  refine ⟨fun w => ⟨computeFlags_z w, computeFlags_n w, computeFlags_o_iff_bit, computeFlags_o_iff_range⟩,
    fun a b => ⟨addWide_toInt a b, subWide_toInt a b, ?carry, ?borrow, ?zeroOfSub, fun hsum => ?zeroAt, fun hsum => ?zeroElse⟩⟩
  case carry => rw [computeFlags_addWide]
  case borrow =>
    rw [computeFlags_subWide, decide_eq_decide]
    omega
  case zeroOfSub =>
    have hexact := subWide_toInt a b
    exact computeFlags_z_eq_trunc32 (by omega) (by omega) (by omega)
  case zeroAt =>
    have hexact := addWide_toInt a b
    exact trunc32_zero_and_not_z (by omega)
  case zeroElse =>
    have hexact := addWide_toInt a b
    exact computeFlags_z_eq_trunc32 (by omega) (by omega) (by omega)

/-! What `A` and `U` answer, and the outcomes they raise (R105, R106). -/

theorem exec_add_regBytes (d r : RegIdx) (s : State) : exec (.add (regByte d) (regByte r)) s =
    .next (writeArith d (addWide (readReg d s) (readReg r s)) s) := by
  rw [exec_add, withRegs_regBytes]

theorem exec_sub_regBytes (d r : RegIdx) (s : State) : exec (.sub (regByte d) (regByte r)) s =
    .next (writeArith d (subWide (readReg d s) (readReg r s)) s) := by
  rw [exec_sub, withRegs_regBytes]

/-- What an arithmetic write-back leaves alone, and where it moves the pc. -/
theorem writeArith_frame (d : RegIdx) (i : Wide) (s : State) :
    otherRegsSame d s (writeArith d i s) ∧ dataSame s (writeArith d i s) ∧ codeSame s (writeArith d i s) ∧
      (writeArith d i s).status = s.status ∧ (writeArith d i s).pc = s.pc + 3 :=
  ⟨fun _ hj => readReg_writeArith_other i s hj, fun _ => rfl, codeSame_of_eq rfl rfl, rfl, rfl⟩

theorem step_of_placed_add {s : State} {dst src : Byte} (h : placedAt s [0x41, dst, src]) :
    step s = exec (.add dst src) s :=
  step_of_placed h (op := .add) rfl rfl rfl

theorem step_of_placed_sub {s : State} {dst src : Byte} (h : placedAt s [0x55, dst, src]) :
    step s = exec (.sub dst src) s :=
  step_of_placed h (op := .sub) rfl rfl rfl

theorem add_raisesLikeTwoRegisters : raisesLikeTwoRegisters 0x41 :=
  raisesLikeTwoRegisters_of_withRegs (op := .add) rfl rfl fun h => ⟨_, step_of_placed_add h⟩

theorem sub_raisesLikeTwoRegisters : raisesLikeTwoRegisters 0x55 :=
  raisesLikeTwoRegisters_of_withRegs (op := .sub) rfl rfl fun h => ⟨_, step_of_placed_sub h⟩

/-- Settles O19: the write-back of the sum's intermediate, its truncation and its flags. -/
theorem addWritesSumAndFlags : Obligations.AddWritesSumAndFlags := by
  refine ⟨fun s d r => ⟨⟨_, exec_add_regBytes d r s, ?sum, ?z, ?n, ?o, writeArith_frame d _ s⟩, step_of_placed_add⟩,
    add_raisesLikeTwoRegisters⟩
  case sum => rw [readReg_writeArith_same, trunc32_addWide_toNat]
  all_goals rw [writeArith_flags, computeFlags_addWide]

/-- Settles O20: the write-back of the difference's intermediate, its truncation and its flags. -/
theorem subWritesDifferenceAndFlags : Obligations.SubWritesDifferenceAndFlags := by
  refine ⟨fun s d r => ⟨⟨_, exec_sub_regBytes d r s, ?difference, ?z, ?n, ?o, writeArith_frame d _ s⟩, step_of_placed_sub⟩,
    sub_raisesLikeTwoRegisters⟩
  case difference => rw [readReg_writeArith_same, trunc32_subWide_toNat]
  all_goals rw [writeArith_flags, computeFlags_subWide]

/-- Settles O29: `A` and `U` answer the same from any earlier flags, and the other instructions keep theirs. -/
theorem arithmeticReplacesAllFlags : Obligations.ArithmeticReplacesAllFlags := by
  refine ⟨computeFlags_eq, fun d r s f => ⟨_, _, exec_add_regBytes d r s, ?add, rfl, exec_sub_regBytes d r s, ?sub, rfl⟩,
    fun _ _ _ h hadd hsub => exec_keeps_flags h hadd hsub⟩
  case add => rw [add_setFlags, exec_add_regBytes]
  case sub => rw [sub_setFlags, exec_sub_regBytes]

end Sys2Proof.Machine
end

section
/-! SUPPORT. The proofs about the moves (43_move.md): what `M` and `I` write and leave alone, and what they raise. -/

namespace Sys2Proof.Machine

/-! The write-back that both moves end in. -/

/-- What writing one register and advancing by three bytes leaves alone, and where it moves the pc. -/
theorem advance_writeReg_frame (d : RegIdx) (v : Word) (s : State) :
    otherRegsSame d s (advance 3 (writeReg d v s)) ∧ sameButRegs s (advance 3 (writeReg d v s)) ∧
      (advance 3 (writeReg d v s)).pc = s.pc + 3 :=
  ⟨fun _ hj => readReg_writeReg_other v s hj, ⟨rfl, fun _ => rfl, codeSame_of_eq rfl rfl, rfl⟩, rfl⟩

/-! `M` (R120). -/

/-- The state `M` answers: the source is read before the destination is written. -/
theorem exec_movr_regBytes (d r : RegIdx) (s : State) : exec (.movr (regByte d) (regByte r)) s =
    .next (advance 3 (writeReg d (readReg r s) s)) := by
  rw [exec_movr, withRegs_regBytes]

theorem step_of_placed_movr {s : State} {dst src : Byte} (h : placedAt s [0x4D, dst, src]) :
    step s = exec (.movr dst src) s :=
  step_of_placed h (op := .movr) rfl rfl rfl

theorem movr_raisesLikeTwoRegisters : raisesLikeTwoRegisters 0x4D :=
  raisesLikeTwoRegisters_of_withRegs (op := .movr) rfl rfl fun h => ⟨_, step_of_placed_movr h⟩

/-- Settles O21: the register written is read back, and the write-back's frame is the rest. -/
theorem moveRegisterCopies : Obligations.MoveRegisterCopies := by
  refine ⟨fun s d r => ⟨⟨_, exec_movr_regBytes d r s, ?copied, advance_writeReg_frame d _ s⟩, step_of_placed_movr⟩,
    movr_raisesLikeTwoRegisters⟩
  case copied => rw [readReg_advance, readReg_writeReg_same]

/-! `I` (R121). -/

/-- The state `I` answers, whatever the immediate byte is. -/
theorem exec_movi_regByte (d : RegIdx) (imm8 : Byte) (s : State) : exec (.movi (regByte d) imm8) s =
    .next (advance 3 (writeReg d (zextByte imm8) s)) := by
  rw [exec_movi, withReg_regByte]

theorem step_of_placed_movi {s : State} {dst imm8 : Byte} (h : placedAt s [0x49, dst, imm8]) :
    step s = exec (.movi dst imm8) s :=
  step_of_placed h (op := .movi) rfl rfl rfl

/-- Settles O22: the zero-extended byte is read back, and only the bounds and the one register field are checked. -/
theorem moveImmediateZeroExtends : Obligations.MoveImmediateZeroExtends := by
  refine fun s => ⟨fun d imm8 => ⟨⟨_, exec_movi_regByte d imm8 s, ?loaded, advance_writeReg_frame d _ s⟩,
    step_of_placed_movi⟩, fun hcut => ?bounds, fun x imm8 hplaced hno => ?noRegister⟩
  case loaded => rw [readReg_advance, readReg_writeReg_same, zextByte_toNat]
  case bounds => exact step_of_cutShort (op := .movi) rfl hcut
  case noRegister => exact (step_of_placed_movi hplaced).trans (withReg_out_of_range hno s _)

end Sys2Proof.Machine
end

section
/-! SUPPORT. The proofs about the control instructions (44_control.md): when a branch's condition fails, and where it then goes. -/

namespace Sys2Proof.Machine

/-! When each condition fails (R131 to R133). -/

theorem condEqual_eq_false_iff (f : Flags) : condEqual f = false ↔ f.z = false := Iff.rfl

theorem condNotEqual_eq_false_iff (f : Flags) : condNotEqual f = false ↔ f.z = true := by
  rw [condNotEqual, Bool.not_eq_false']

theorem condLess_eq_false_iff (f : Flags) : condLess f = false ↔ f.n = f.o :=
  bne_eq_false_iff_eq

/-! Where an untaken branch goes (R135). -/

/-- The sequential advance, its sum taken over the numbers before it is reduced modulo 2^32. -/
theorem advance_eq_ofNat (width : Nat) (s : State) :
    advance width s = { s with pc := BitVec.ofNat 32 (s.pc.toNat + width) } := by
  have hpc : BitVec.ofNat 32 (s.pc.toNat + width) = s.pc + BitVec.ofNat 32 width := by
    rw [BitVec.ofNat_add, BitVec.ofNat_toNat, BitVec.setWidth_eq]
  rw [hpc]
  rfl

/-- A branch whose condition fails, whichever condition it is. -/
theorem branch_of_not_taken {c : Bool} (hc : c = false) (disp : Word) (s : State) :
    branch c disp s = { s with pc := BitVec.ofNat 32 (s.pc.toNat + 6) } := by
  rw [hc, branch_not_taken]
  exact advance_eq_ofNat 6 s

/-- Settles O26: each premise is the failure of the branch's own condition, and one lemma says where an untaken branch goes. -/
theorem untakenBranchAdvancesBySix : Obligations.UntakenBranchAdvancesBySix := by
  refine fun s disp => ⟨fun hz => ?be, fun hz => ?bn, fun hno => ?bl⟩
  case be => rw [exec_be, branch_of_not_taken ((condEqual_eq_false_iff _).mpr hz)]
  case bn => rw [exec_bn, branch_of_not_taken ((condNotEqual_eq_false_iff _).mpr hz)]
  case bl => rw [exec_bl, branch_of_not_taken ((condLess_eq_false_iff _).mpr hno)]

end Sys2Proof.Machine
end

section
/-! SUPPORT. The proofs about the outcomes (60_exceptions.md): the checks of the fetch raise `IllegalInstruction` for its two
causes, and no instruction raises it. -/

namespace Sys2Proof.Machine

/-! Every instruction, and so every running step, answers a next state. -/

theorem withRegs_answers_next (a b : Byte) (s : State) (k : RegIdx → RegIdx → State) : ∃ t, withRegs a b s k = .next t := by
  unfold withRegs
  split <;> exact ⟨_, rfl⟩

theorem withReg_answers_next (a : Byte) (s : State) (k : RegIdx → State) : ∃ t, withReg a s k = .next t := by
  unfold withReg
  split <;> exact ⟨_, rfl⟩

theorem exec_answers_next (i : Instr) (s : State) : ∃ t, exec i s = .next t := by
  cases i with
  | store | load | add | sub | movr => exact withRegs_answers_next _ _ s _
  | movi => exact withReg_answers_next _ s _
  | be | bn | bl | halt => exact ⟨_, rfl⟩

theorem step_answers_next {s : State} (hrun : s.status = .running) : ∃ t, step s = .next t := by
  cases hf : (fetchInstr s).instr with
  | ok i => exact step_of_fetched hrun hf ▸ exec_answers_next i s
  | error k => exact ⟨_, step_of_cause hrun hf⟩

/-! The run status an instruction leaves: the register check is the one check that Execute makes itself (R76). -/

theorem exec_status_cases {i : Instr} {s t : State} (h : exec i s = .next t) :
    t.status = s.status ∨ t.status = .halted ∨ t.status = .registerIndexOutOfRange s.pc := by
  cases i with
  | store | load | add | sub | movr =>
    obtain ⟨_, _, -, -, rfl⟩ | ⟨-, rfl⟩ := withRegs_cases h
    · exact .inl rfl
    · exact .inr (.inr rfl)
  | movi =>
    obtain ⟨_, -, rfl⟩ | ⟨-, rfl⟩ := withReg_cases h
    · exact .inl rfl
    · exact .inr (.inr rfl)
  | be | bn | bl =>
    cases h
    exact .inl (branch_status _ _ s)
  | halt =>
    cases h
    exact .inr (.inl rfl)

theorem exec_not_illegalInstruction {i : Instr} {s t : State} (hrun : s.status = .running) (h : exec i s = .next t)
    (p : Word) : t.status ≠ .illegalInstruction p := by
  obtain hs | hs | hs := exec_status_cases h <;> simp [hs, hrun]

theorem causeStatus_eq_illegalInstruction_iff {k : Cause} {pc p : Word} :
    causeStatus k pc = .illegalInstruction p ↔ k = .illegalInstruction ∧ p = pc := by
  cases k <;> simp [causeStatus, eq_comm]

/-- A step ends in `IllegalInstruction` exactly when its fetch finds that cause, and it records the pc (R71, R152). -/
theorem step_status_illegalInstruction_iff {s t : State} (h : step s = .next t) (p : Word) :
    t.status = .illegalInstruction p ↔ p = s.pc ∧ (fetchInstr s).instr = .error .illegalInstruction := by
  obtain ⟨hrun, ⟨i, hf, hexec⟩ | ⟨k, hf, rfl⟩⟩ := step_cases h
  · simp [hf, exec_not_illegalInstruction hrun hexec p]
  · simp [hf, causeStatus_eq_illegalInstruction_iff, and_comm]

/-! The bytes of a whole instruction: only a branch's condition byte can keep them from decoding (R57, R75). -/

/-- The bytes of the instruction an opcode begins, that opcode's tag first. -/
theorem readBytes_opcodeLen {s : State} {p : Nat} {op : Opcode} (hop : opcodeOf (fetchByte s p) = some op) :
    Memory.readBytes s.code p (opcodeLen op) = opcodeTag op :: Memory.readBytes s.code (p + 1) (opcodeLen op - 1) := by
  have hlen : opcodeLen op = (opcodeLen op - 1) + 1 := by cases op <;> rfl
  rw [hlen, Memory.readBytes, ← opcodeTag_of_opcodeOf hop]
  rfl

theorem decodeAt_of_not_branch {s : State} {p : Nat} {op : Opcode} (hop : opcodeOf (fetchByte s p) = some op)
    (hne : op ≠ .branch) : ∃ i, decodeAt s (instrOffsets p (opcodeLen op)) = .ok i := by
  simp only [decodeAt_eq_ok_iff, readBytes_opcodeLen hop]
  cases op with
  | store => exact ⟨_, _, decode_store _ _ []⟩
  | load => exact ⟨_, _, decode_load _ _ []⟩
  | add => exact ⟨_, _, decode_add _ _ []⟩
  | sub => exact ⟨_, _, decode_sub _ _ []⟩
  | movr => exact ⟨_, _, decode_movr _ _ []⟩
  | movi => exact ⟨_, _, decode_movi _ _ []⟩
  | halt => exact ⟨_, _, decode_halt []⟩
  | branch => exact absurd rfl hne

/-- A whole branch with one of the three condition bytes (R57). -/
theorem decode_legalCondition {c : Byte} (hc : c ∈ conditionBytes) (d0 d1 d2 d3 : Byte) (rest : List Byte) :
    ∃ i, decode (0x42 :: c :: d0 :: d1 :: d2 :: d3 :: rest) = .ok (i, rest) := by
  obtain rfl | rfl | rfl : c = 0x45 ∨ c = 0x4E ∨ c = 0x4C := by simpa [conditionBytes] using hc
  · exact ⟨_, decode_be d0 d1 d2 d3 rest⟩
  · exact ⟨_, decode_bn d0 d1 d2 d3 rest⟩
  · exact ⟨_, decode_bl d0 d1 d2 d3 rest⟩

theorem decodeAt_branch_of_legalCondition {s : State} {p : Nat} (hop : opcodeOf (fetchByte s p) = some .branch)
    (hc : fetchByte s (p + 1) ∈ conditionBytes) : ∃ i, decodeAt s (instrOffsets p (opcodeLen .branch)) = .ok i := by
  simp only [decodeAt_eq_ok_iff, readBytes_opcodeLen hop]
  obtain ⟨i, hi⟩ := decode_legalCondition hc _ _ _ _ []
  exact ⟨i, [], hi⟩

theorem decodeAt_branch_of_illegalCondition {s : State} {p : Nat} (hop : opcodeOf (fetchByte s p) = some .branch)
    (hc : fetchByte s (p + 1) ∉ conditionBytes) :
    decodeAt s (instrOffsets p (opcodeLen .branch)) = .error .illegalInstruction := by
  refine decodeAt_of_decode_error (e := .illegalCondition (fetchByte s (p + 1))) ?_
  rw [readBytes_opcodeLen hop]
  exact decode_illegalCondition _ _ _ _ [] hc

/-- Where an opcode's whole instruction does not decode, it is a branch with an illegal condition byte. -/
theorem branch_of_decodeAt_error {s : State} {p : Nat} {op : Opcode} {k : Cause}
    (hop : opcodeOf (fetchByte s p) = some op) (h : decodeAt s (instrOffsets p (opcodeLen op)) = .error k) :
    op = .branch ∧ fetchByte s (p + 1) ∉ conditionBytes := by
  by_cases hbranch : op = .branch
  · subst hbranch
    refine ⟨rfl, fun hc => ?_⟩
    obtain ⟨i, hi⟩ := decodeAt_branch_of_legalCondition hop hc
    simp [hi] at h
  · obtain ⟨i, hi⟩ := decodeAt_of_not_branch hop hbranch
    simp [hi] at h

/-! The two causes of `IllegalInstruction` (R152). -/

/-- The fetch finds an illegal instruction at an opcode byte that is no tag (R73) and at a whole branch whose condition byte is no
tag (R75). -/
theorem fetchInstr_illegalInstruction_iff {s : State} : (fetchInstr s).instr = .error .illegalInstruction ↔
    (s.pc.toNat < s.codeSize ∧ fetchByte s s.pc.toNat ∉ opcodeBytes) ∨
      (s.pc.toNat + 6 ≤ s.codeSize ∧ fetchByte s s.pc.toNat = 0x42 ∧ fetchByte s (s.pc.toNat + 1) ∉ conditionBytes) := by
  constructor
  · intro h
    obtain ⟨-, hf⟩ | ⟨hpc, hnone, -⟩ | ⟨_, -, -, -, hf⟩ | ⟨op, -, hop, hfits, hf⟩ := fetchInstr_cases s
    · simp [hf] at h
    · exact .inl ⟨hpc, opcodeOf_eq_none_iff.mp hnone⟩
    · simp [hf] at h
    · rw [hf] at h
      obtain ⟨rfl, hc⟩ := branch_of_decodeAt_error hop h
      exact .inr ⟨hfits, opcodeTag_of_opcodeOf hop, hc⟩
  · rintro (⟨hpc, hbad⟩ | ⟨hfits, hhead, hc⟩)
    · exact fetchInstr_of_illegalOpcode hpc (opcodeOf_eq_none_iff.mpr hbad)
    · have hop : opcodeOf (fetchByte s s.pc.toNat) = some .branch := opcodeOf_eq_some_iff.mpr hhead
      exact (fetchInstr_of_fits hop hfits).trans (decodeAt_branch_of_illegalCondition hop hc)

/-- Settles O10: only the fetch raises `IllegalInstruction`, and it does so for exactly the two causes. -/
theorem illegalInstructionHasTwoCauses : Obligations.IllegalInstructionHasTwoCauses := by
  intro s hrun
  obtain ⟨t, ht⟩ := step_answers_next hrun
  refine ⟨t, ht, fun p => ?_⟩
  rw [step_status_illegalInstruction_iff ht, fetchInstr_illegalInstruction_iff]

end Sys2Proof.Machine
end

section
/-! SUPPORT. The proofs of the round trips between instructions and bytes (30_encoding.md): the decoder undoes the encoder, and
accepts nothing but encodings. -/

namespace Sys2Proof.Machine

/-! The displacement's four bytes and its word (R34, R56). -/

theorem wordByte_toNat (w : Word) (k : Nat) : (wordByte w k).toNat = w.toNat / 2 ^ (8 * k) % 256 := by
  rw [wordByte, BitVec.extractLsb'_toNat, Nat.shiftRight_eq_div_pow]

@[simp] theorem le32_wordBytes (w : Word) : le32 (wordByte w 0) (wordByte w 1) (wordByte w 2) (wordByte w 3) = w := by
  apply BitVec.eq_of_toNat_eq
  simp only [le32_toNat, wordByte_toNat]
  omega

/-- Each byte of a word built from four bytes is the one it was built from. -/
theorem wordBytes_le32 (b0 b1 b2 b3 : Byte) :
    wordByte (le32 b0 b1 b2 b3) 0 = b0 ∧ wordByte (le32 b0 b1 b2 b3) 1 = b1 ∧
      wordByte (le32 b0 b1 b2 b3) 2 = b2 ∧ wordByte (le32 b0 b1 b2 b3) 3 = b3 := by
  refine ⟨?_, ?_, ?_, ?_⟩ <;>
  · apply BitVec.eq_of_toNat_eq
    rw [wordByte_toNat, le32_toNat]
    omega

theorem encodeBR_le32 (c b0 b1 b2 b3 : Byte) : encodeBR c (le32 b0 b1 b2 b3) = [0x42, c, b0, b1, b2, b3] := by
  obtain ⟨h0, h1, h2, h3⟩ := wordBytes_le32 b0 b1 b2 b3
  rw [encodeBR, h0, h1, h2, h3]
  rfl

/-! The decoder on an encoding. -/

theorem decode_encode (i : Instr) (rest : List Byte) : decode (encode i ++ rest) = .ok (i, rest) := by
  cases i with
  | store ptr val => exact decode_store ptr val rest
  | load ptr dst => exact decode_load ptr dst rest
  | add dst src => exact decode_add dst src rest
  | sub dst src => exact decode_sub dst src rest
  | movr dst src => exact decode_movr dst src rest
  | movi dst imm8 => exact decode_movi dst imm8 rest
  | halt => exact decode_halt rest
  | be disp => exact (decode_be _ _ _ _ rest).trans (by rw [le32_wordBytes])
  | bn disp => exact (decode_bn _ _ _ _ rest).trans (by rw [le32_wordBytes])
  | bl disp => exact (decode_bl _ _ _ _ rest).trans (by rw [le32_wordBytes])

/-- Settles O1, one row of the opcode map for each instruction; a branch's displacement is the word of its four bytes. -/
theorem decodeOfEncodeIsTheInstruction : Obligations.DecodeOfEncodeIsTheInstruction := decode_encode

/-! What the decoder accepts. -/

/-- Format BR accepts a condition tag and four bytes, which are the displacement's. -/
theorem encode_of_decodeBR {bs rest : List Byte} {i : Instr} (h : decodeBR bs = .ok (i, rest)) :
    opcodeTag .branch :: bs = encode i ++ rest := by
  unfold decodeBR at h
  split at h
  · split_ifs at h with hE hN hL
    all_goals
      cases h
      simp [encode, encodeBR_le32, opcodeTag, *]
  · cases h

theorem encode_of_decode {bytes rest : List Byte} {i : Instr} (h : decode bytes = .ok (i, rest)) :
    bytes = encode i ++ rest := by
  cases bytes with
  | nil => cases h
  | cons b bs =>
    rw [decode] at h
    cases hop : opcodeOf b with
    | none => simp [hop] at h
    | some op =>
      simp only [hop] at h
      rw [opcodeTag_of_opcodeOf hop]
      cases op with
      | store | load | add | sub | movr | movi =>
        obtain ⟨_, _, rfl, rfl⟩ := decodeRR_eq_ok h
        rfl
      | branch => exact encode_of_decodeBR h
      | halt =>
        cases h
        rfl

/-- Settles O2: the first byte fixes the opcode, and each format accepts exactly the bytes the encoder writes for it. -/
theorem encodeOfDecodeIsTheBytes : Obligations.EncodeOfDecodeIsTheBytes := fun _ _ _ => encode_of_decode

/-- Settles O4, from the rows of the opcode map; the four displacement bytes of the `BN` are those of -27. -/
theorem sampleWordsDecode : Obligations.SampleWordsDecode := by
  have hdisp : le32 0xE5 0xFF 0xFF 0xFF = BitVec.ofInt 32 (-27) := by decide
  exact ⟨decode_store 1 2 [], decode_add 4 2 [], decode_movi 4 0xFF [], hdisp ▸ decode_bn 0xE5 0xFF 0xFF 0xFF [],
    decode_halt []⟩

end Sys2Proof.Machine
end

section
/-! SUPPORT. The proofs about the dispatch cycle (40_dispatch_cycle.md, 60_exceptions.md): which instruction a step fetches, how its
execution ends, and the first failing check of R71 as the outcome of the step. -/

namespace Sys2Proof.Machine

/-! A fetch answers exactly the instruction whose encoding stands whole at the pc (R50, R71). -/

theorem Memory.length_readBytes (m : Memory) (a n : Nat) : (Memory.readBytes m a n).length = n := by
  induction n generalizing a with
  | zero => rfl
  | succ n ih => exact congrArg (· + 1) (ih (a + 1))

theorem encodedLength (i : Instr) : Laws.EncodedLength.Statement i := by
  cases i with
  | store ptr val => exact Laws.EncodedLength.store ptr val
  | load ptr dst => exact Laws.EncodedLength.load ptr dst
  | add dst src => exact Laws.EncodedLength.add dst src
  | sub dst src => exact Laws.EncodedLength.sub dst src
  | movr dst src => exact Laws.EncodedLength.movr dst src
  | movi dst imm8 => exact Laws.EncodedLength.movi dst imm8
  | be disp => exact Laws.EncodedLength.be disp
  | bn disp => exact Laws.EncodedLength.bn disp
  | bl disp => exact Laws.EncodedLength.bl disp
  | halt => exact Laws.EncodedLength.halt

/-- The decoder leaves none of the bytes that an opcode's length takes. -/
theorem encode_of_decode_opcodeLen {s : State} {p : Nat} {op : Opcode} {i : Instr} {rest : List Byte}
    (hop : opcodeOf (fetchByte s p) = some op) (hdec : decode (Memory.readBytes s.code p (opcodeLen op)) = .ok (i, rest)) :
    (encode i).length = opcodeLen op ∧ Memory.readBytes s.code p (opcodeLen op) = encode i := by
  have hbytes := encode_of_decode hdec
  obtain ⟨op', tail, henc, hop', hlen⟩ := encodedLength i
  obtain rfl : op = op' := by
    rw [readBytes_opcodeLen hop, henc] at hbytes
    have htag : opcodeTag op = opcodeTag op' := (List.cons.inj hbytes).1
    simpa [← htag] using hop'
  have hrest : rest = [] := by
    have hcount := congrArg List.length hbytes
    rw [Memory.length_readBytes, List.length_append, hlen] at hcount
    exact List.length_eq_zero_iff.mp (by omega)
  exact ⟨hlen, by rw [hbytes, hrest, List.append_nil]⟩

theorem fetchInstr_eq_ok_iff {s : State} {i : Instr} : (fetchInstr s).instr = .ok i ↔
    s.pc.toNat + (encode i).length ≤ s.codeSize ∧ Memory.readBytes s.code s.pc.toNat (encode i).length = encode i := by
  constructor
  · intro h
    obtain ⟨-, hf⟩ | ⟨-, -, hf⟩ | ⟨_, -, -, -, hf⟩ | ⟨op, -, hop, hfits, hf⟩ := fetchInstr_cases s <;> rw [hf] at h
    case inr.inr.inr =>
      obtain ⟨rest, hdec⟩ := decodeAt_eq_ok_iff.mp h
      obtain ⟨hlen, hbytes⟩ := encode_of_decode_opcodeLen hop hdec
      rw [hlen]
      exact ⟨hfits, hbytes⟩
    all_goals cases h
  · rintro ⟨hfits, hbytes⟩
    obtain ⟨op, tail, henc, hop, hlen⟩ := encodedLength i
    rw [hlen] at hfits hbytes
    have hhead : opcodeOf (fetchByte s s.pc.toNat) = some op := by
      have hcons : Memory.readBytes s.code s.pc.toNat (encode i).length = opcodeTag op :: tail := by rw [hlen, hbytes, henc]
      rw [henc] at hcons
      rw [show fetchByte s s.pc.toNat = opcodeTag op from (List.cons.inj hcons).1, hop]
    refine (fetchInstr_of_fits hhead hfits).trans (decodeAt_eq_ok_iff.mpr ⟨[], ?_⟩)
    rw [hbytes, ← List.append_nil (encode i), decode_encode]

theorem step_of_placed_encode {s : State} {i : Instr} (h : placedAt s (encode i)) : step s = exec i s := by
  obtain ⟨hrun, hplaced⟩ := h
  exact step_of_fetched hrun (fetchInstr_eq_ok_iff.mpr hplaced)

/-- Settles O6: bytes that decode without a rest are the encoding, which the step fetches. -/
theorem stepRunsTheDecodedInstruction : Obligations.StepRunsTheDecodedInstruction := by
  intro s n i hrun hfits hdec
  have hbytes : Memory.readBytes s.code s.pc.toNat n = encode i := by simpa using encode_of_decode hdec
  obtain rfl : n = (encode i).length := by rw [← hbytes, Memory.length_readBytes]
  exact step_of_placed_encode ⟨hrun, hfits, hbytes⟩

/-- Settles O14: every instruction and every failing check answers a next state, and an ended run takes no step. -/
theorem stepAnswersExactlyWhileRunning : Obligations.StepAnswersExactlyWhileRunning := by
  refine fun s => ⟨⟨fun ⟨t, ht⟩ => ?_, step_answers_next⟩, step_of_ended⟩
  obtain ⟨hrun, -⟩ := step_cases ht
  exact hrun

/-! How the execution of an instruction ends: the register check, `H`, or completion (R71, R76). -/

theorem regByteOk_eq_false_iff {b : Byte} : regByteOk b = false ↔ namesNoReg b := by
  rw [regByteOk, Config.nReg, decide_eq_false_iff_not, Nat.not_lt]

@[simp] theorem regByteOk_regByte (i : RegIdx) : regByteOk (regByte i) = true := by
  cases hok : regByteOk (regByte i) with
  | true => rfl
  | false => simpa using regIndex_eq_none_iff.mpr (regByteOk_eq_false_iff.mp hok)

theorem regBytesOk_eq_false_iff {a b : Byte} : (regByteOk a && regByteOk b) = false ↔ namesNoReg a ∨ namesNoReg b := by
  rw [Bool.and_eq_false_iff, regByteOk_eq_false_iff, regByteOk_eq_false_iff]

/-- All an instruction can do to the run status: complete, halt, or raise for a register field that names no register. -/
theorem exec_outcome {i : Instr} {s t : State} (h : exec i s = .next t) :
    (i.wellFormed = true ∧ i ≠ .halt ∧ t.status = s.status) ∨ (i = .halt ∧ t = haltRun s) ∨
      (i.wellFormed = false ∧ t = raise .registerIndexOutOfRange s) := by
  cases i with
  | store | load | add | sub | movr =>
    obtain ⟨_, _, rfl, rfl, rfl⟩ | ⟨hno, rfl⟩ := withRegs_cases h
    · exact .inl ⟨by simp [Instr.wellFormed], nofun, rfl⟩
    · exact .inr (.inr ⟨regBytesOk_eq_false_iff.mpr hno, rfl⟩)
  | movi =>
    obtain ⟨_, rfl, rfl⟩ | ⟨hno, rfl⟩ := withReg_cases h
    · exact .inl ⟨regByteOk_regByte _, nofun, rfl⟩
    · exact .inr (.inr ⟨regByteOk_eq_false_iff.mpr hno, rfl⟩)
  | be | bn | bl =>
    cases h
    exact .inl ⟨rfl, nofun, branch_status _ _ s⟩
  | halt =>
    cases h
    exact .inr (.inl ⟨rfl, rfl⟩)

/-- Settles O16: which of an instruction's outcomes is possible depends on its register fields. -/
theorem wellFormedInstructionsComplete : Obligations.WellFormedInstructionsComplete := by
  intro i s
  obtain ⟨t, ht⟩ := exec_answers_next i s
  obtain ⟨hwf, -, hs⟩ | ⟨rfl, rfl⟩ | ⟨hwf, rfl⟩ := exec_outcome ht
  · exact ⟨fun _ => ⟨t, ht, .inl hs⟩, fun hbad => by simp [hwf] at hbad⟩
  · exact ⟨fun _ => ⟨_, ht, .inr ⟨rfl, rfl⟩⟩, nofun⟩
  · exact ⟨fun hok => by simp [hwf] at hok, fun _ => ht⟩

theorem faultPc_raise (k : Cause) (s : State) : faultPc (raise k s) = some s.pc := by
  cases k <;> rfl

/-- A step that ends the run raises a cause or halts (R83). -/
theorem step_end_cases {s t : State} (h : step s = .next t) (hend : t.status ≠ .running) :
    (∃ k, t = raise k s) ∨ t = haltRun s := by
  obtain ⟨hrun, ⟨i, -, hexec⟩ | ⟨k, -, rfl⟩⟩ := step_cases h
  · obtain ⟨-, -, hs⟩ | ⟨-, rfl⟩ | ⟨-, rfl⟩ := exec_outcome hexec
    · exact absurd (hs.trans hrun) hend
    · exact .inr rfl
    · exact .inl ⟨_, rfl⟩
  · exact .inl ⟨k, rfl⟩

/-- Settles O15: raising and halting set the status alone, and raising records the pc. -/
theorem endOfRunChangesOnlyTheStatus : Obligations.EndOfRunChangesOnlyTheStatus := by
  intro s t h hend
  obtain ⟨k, rfl⟩ | rfl := step_end_cases h hend
  · refine ⟨rfl, fun p hp => ?_⟩
    rw [faultPc_raise] at hp
    exact (Option.some.inj hp).symm
  · exact ⟨rfl, nofun⟩

/-! The first failing check over the code bytes is the one the fetch or the register check finds (R71). -/

/-- The widths that R71 reads off the opcode byte are the opcodes' lengths. -/
theorem width_of_opcodeOf {b : Byte} {op : Opcode} (hop : opcodeOf b = some op) :
    (if b = 0x42 then 6 else if b = 0x48 then 1 else 3) = opcodeLen op := by
  rw [opcodeTag_of_opcodeOf hop]
  cases op <;> rfl

theorem mem_opcodeBytes_of_opcodeOf {b : Byte} {op : Opcode} (hop : opcodeOf b = some op) : b ∈ opcodeBytes :=
  opcodeTag_of_opcodeOf hop ▸ opcodeTag_mem_opcodeBytes op

/-- Past the fetch bound and the opcode check, the width compared is the opcode's length. -/
theorem firstFailedCheck_of_cut {s : State} {op : Opcode} (hpc : s.pc.toNat < s.codeSize)
    (hop : opcodeOf (fetchByte s s.pc.toNat) = some op) (hcut : s.codeSize < s.pc.toNat + opcodeLen op) :
    firstFailedCheck s = some .programCounterOutOfRange := by
  have hmem := mem_opcodeBytes_of_opcodeOf hop
  simp only [firstFailedCheck, width_of_opcodeOf hop, ge_iff_le, gt_iff_lt, Nat.not_le.mpr hpc, hmem, not_true, hcut,
    if_true, if_false]

/-- The checks of R75 and R76, on the two bytes after the opcode. -/
def operandCheck (op : Opcode) (b1 b2 : Byte) : Option Cause :=
  match op with
  | .branch => if b1 ∈ conditionBytes then none else some .illegalInstruction
  | .movi => if namesNoReg b1 then some .registerIndexOutOfRange else none
  | .halt => none
  | .store | .load | .add | .sub | .movr => if namesNoReg b1 ∨ namesNoReg b2 then some .registerIndexOutOfRange else none

/-- The last checks of R71, written over the opcode byte, are the opcode's. -/
theorem operandCheck_eq (op : Opcode) (b1 b2 : Byte) : operandCheck op b1 b2 =
    if opcodeTag op = 0x42 ∧ b1 ∉ conditionBytes then some .illegalInstruction
    else if opcodeTag op ∈ twoRegisterOpcodes ∧ (b1.toNat > 15 ∨ b2.toNat > 15) then some .registerIndexOutOfRange
    else if opcodeTag op = 0x49 ∧ b1.toNat > 15 then some .registerIndexOutOfRange
    else none := by
  cases op <;> simp [operandCheck, opcodeTag, twoRegisterOpcodes, namesNoReg, Nat.lt_iff_add_one_le]

theorem opcodeLen_pos (op : Opcode) : 0 < opcodeLen op := by
  cases op <;> decide

/-- Past the checks of the bounds, the operand bytes decide. -/
theorem firstFailedCheck_of_fits {s : State} {op : Opcode} (hop : opcodeOf (fetchByte s s.pc.toNat) = some op)
    (hfits : s.pc.toNat + opcodeLen op ≤ s.codeSize) :
    firstFailedCheck s = operandCheck op (fetchByte s (s.pc.toNat + 1)) (fetchByte s (s.pc.toNat + 2)) := by
  have hpc : ¬ s.codeSize ≤ s.pc.toNat := by
    have := opcodeLen_pos op
    omega
  have hmem := mem_opcodeBytes_of_opcodeOf hop
  have hwidth := width_of_opcodeOf hop
  rw [opcodeTag_of_opcodeOf hop] at hmem hwidth
  simp only [firstFailedCheck, operandCheck_eq, opcodeTag_of_opcodeOf hop, hwidth, ge_iff_le, gt_iff_lt, hpc, hmem, not_true,
    Nat.not_lt.mpr hfits, if_false]

theorem firstFailedCheck_of_fetch_error {s : State} {k : Cause} (hf : (fetchInstr s).instr = .error k) :
    firstFailedCheck s = some k := by
  obtain ⟨hout, h⟩ | ⟨hpc, hnone, h⟩ | ⟨op, hpc, hop, hcut, h⟩ | ⟨op, -, hop, hfits, h⟩ := fetchInstr_cases s <;>
    rw [h] at hf
  · cases hf
    simp [firstFailedCheck, hout]
  · cases hf
    simp [firstFailedCheck, Nat.not_le.mpr hpc, opcodeOf_eq_none_iff.mp hnone]
  · cases hf
    exact firstFailedCheck_of_cut hpc hop hcut
  · obtain ⟨rfl, hc⟩ := branch_of_decodeAt_error hop hf
    obtain rfl : Cause.illegalInstruction = k :=
      Except.error.inj ((decodeAt_branch_of_illegalCondition hop hc).symm.trans hf)
    rw [firstFailedCheck_of_fits hop hfits]
    exact if_neg hc

/-- An encoding of two bytes or more at the pc: the operand checks are made on its second and third byte. -/
theorem firstFailedCheck_of_bytes {s : State} {op : Opcode} {b1 b2 : Byte} {bs : List Byte}
    (hlen : (opcodeTag op :: b1 :: b2 :: bs).length = opcodeLen op)
    (hfits : s.pc.toNat + (opcodeTag op :: b1 :: b2 :: bs).length ≤ s.codeSize)
    (hbytes : Memory.readBytes s.code s.pc.toNat (opcodeTag op :: b1 :: b2 :: bs).length = opcodeTag op :: b1 :: b2 :: bs) :
    firstFailedCheck s = operandCheck op b1 b2 := by
  obtain ⟨hhead, h1, h2, -⟩ : fetchByte s s.pc.toNat = opcodeTag op ∧ fetchByte s (s.pc.toNat + 1) = b1 ∧
      fetchByte s (s.pc.toNat + 2) = b2 ∧ _ := by simpa [Memory.readBytes, fetchByte] using hbytes
  rw [firstFailedCheck_of_fits (opcodeOf_eq_some_iff.mpr hhead) (hlen ▸ hfits), h1, h2]

/-- Checking that a field names no register is checking that the instruction is not well-formed. -/
theorem ite_namesNoReg {α : Type} (a : Byte) (x y : α) :
    (if namesNoReg a then x else y) = if regByteOk a then y else x := by
  simp only [← regByteOk_eq_false_iff]
  cases regByteOk a <;> rfl

theorem ite_namesNoReg_or {α : Type} (a b : Byte) (x y : α) :
    (if namesNoReg a ∨ namesNoReg b then x else y) = if regByteOk a && regByteOk b then y else x := by
  simp only [← regBytesOk_eq_false_iff]
  cases regByteOk a && regByteOk b <;> rfl

/-- The register check over the operand bytes is that of the instruction they make (R76). -/
theorem firstFailedCheck_of_fetch_ok {s : State} {i : Instr} (hf : (fetchInstr s).instr = .ok i) :
    firstFailedCheck s = if i.wellFormed then none else some .registerIndexOutOfRange := by
  obtain ⟨hfits, hbytes⟩ := fetchInstr_eq_ok_iff.mp hf
  cases i with
  | store a b => exact (firstFailedCheck_of_bytes (op := .store) rfl hfits hbytes).trans (ite_namesNoReg_or a b _ _)
  | load a b => exact (firstFailedCheck_of_bytes (op := .load) rfl hfits hbytes).trans (ite_namesNoReg_or a b _ _)
  | add a b => exact (firstFailedCheck_of_bytes (op := .add) rfl hfits hbytes).trans (ite_namesNoReg_or a b _ _)
  | sub a b => exact (firstFailedCheck_of_bytes (op := .sub) rfl hfits hbytes).trans (ite_namesNoReg_or a b _ _)
  | movr a b => exact (firstFailedCheck_of_bytes (op := .movr) rfl hfits hbytes).trans (ite_namesNoReg_or a b _ _)
  | movi a _ => exact (firstFailedCheck_of_bytes (op := .movi) rfl hfits hbytes).trans (ite_namesNoReg a _ _)
  | be | bn | bl => exact firstFailedCheck_of_bytes (op := .branch) rfl hfits hbytes
  | halt =>
    have hhead : fetchByte s s.pc.toNat = opcodeTag .halt := (List.cons.inj hbytes).1
    exact firstFailedCheck_of_fits (opcodeOf_eq_some_iff.mpr hhead) hfits

/-- Settles O7: the first failing check is the fetch's cause, or the register check of the instruction fetched. -/
theorem stepFollowsTheCheckOrder : Obligations.StepFollowsTheCheckOrder := by
  intro s hrun
  cases hf : (fetchInstr s).instr with
  | error k =>
    rw [firstFailedCheck_of_fetch_error hf]
    refine ⟨fun k' hk => ?_, nofun⟩
    obtain rfl := Option.some.inj hk
    exact step_of_cause hrun hf
  | ok i =>
    have hstep := step_of_fetched hrun hf
    rw [firstFailedCheck_of_fetch_ok hf]
    cases hwf : i.wellFormed with
    | true => exact ⟨nofun, fun _ => ⟨i, hwf, ⟨hrun, fetchInstr_eq_ok_iff.mp hf⟩, hstep⟩⟩
    | false =>
      refine ⟨fun k hk => ?_, nofun⟩
      obtain rfl := Option.some.inj hk
      exact hstep.trans ((wellFormedInstructionsComplete i s).2 hwf)

/-! The outcomes and their causes (R152 to R154): a fault outcome is the first failing check. -/

theorem causeStatus_inj {k k' : Cause} {p q : Word} : causeStatus k p = causeStatus k' q ↔ k = k' ∧ p = q := by
  cases k <;> cases k' <;> simp [causeStatus]

theorem causeStatus_ne_running (k : Cause) (p : Word) : causeStatus k p ≠ .running := by
  cases k <;> simp [causeStatus]

theorem causeStatus_ne_halted (k : Cause) (p : Word) : causeStatus k p ≠ .halted := by
  cases k <;> simp [causeStatus]

theorem step_status_eq_causeStatus_iff {s t : State} (h : step s = .next t) (k : Cause) (p : Word) :
    t.status = causeStatus k p ↔ p = s.pc ∧ firstFailedCheck s = some k := by
  obtain ⟨hrun, -⟩ := step_cases h
  obtain ⟨hfails, hpasses⟩ := stepFollowsTheCheckOrder s hrun
  cases hc : firstFailedCheck s with
  | some k' =>
    obtain rfl : raise k' s = t := Host.Outcome.next.inj ((hfails k' hc).symm.trans h)
    rw [raise_status, causeStatus_inj, Option.some.injEq, and_comm, eq_comm (a := p)]
  | none =>
    obtain ⟨i, hwf, -, hstep⟩ := hpasses hc
    have hno : t.status ≠ causeStatus k p := by
      obtain ⟨-, -, hs⟩ | ⟨-, rfl⟩ | ⟨hbad, -⟩ := exec_outcome (hstep.symm.trans h)
      · rw [hs, hrun]
        exact (causeStatus_ne_running k p).symm
      · exact (causeStatus_ne_halted k p).symm
      · simp [hwf] at hbad
    simp [hno]

theorem three_of_mem_threeByteOpcodes {b : Byte} (h : b ∈ threeByteOpcodes) : ∃ op, opcodeOf b = some op ∧ opcodeLen op = 3 := by
  obtain ⟨-, -, hthree, -⟩ := opcodeFixesTheLength
  exact Option.map_eq_some_iff.mp (hthree b h)

/-- Which opcode bytes begin an instruction that runs past the end of the code; that of `H` cannot. -/
theorem runsPast_iff {b : Byte} {p size : Nat} (hp : p < size) : (∃ op, opcodeOf b = some op ∧ size < p + opcodeLen op) ↔
    (b ∈ threeByteOpcodes ∧ size < p + 3) ∨ (b = 0x42 ∧ size < p + 6) := by
  constructor
  · rintro ⟨op, hop, hpast⟩
    rw [opcodeTag_of_opcodeOf hop]
    cases op with
    | store | load | add | sub | movr | movi => exact .inl ⟨by decide, hpast⟩
    | branch => exact .inr ⟨rfl, hpast⟩
    | halt => exact absurd hp (Nat.not_lt.mpr (Nat.le_of_lt_succ hpast))
  · rintro (⟨hb, hpast⟩ | ⟨rfl, hpast⟩)
    · obtain ⟨op, hop, hlen⟩ := three_of_mem_threeByteOpcodes hb
      exact ⟨op, hop, hlen ▸ hpast⟩
    · exact ⟨.branch, rfl, hpast⟩

/-- Only the bounds answer `ProgramCounterOutOfRange` (R72, R74). -/
theorem operandCheck_ne_programCounterOutOfRange (op : Opcode) (b1 b2 : Byte) :
    operandCheck op b1 b2 ≠ some .programCounterOutOfRange := by
  rw [operandCheck_eq]
  split_ifs <;> simp

theorem firstFailedCheck_eq_programCounterOutOfRange_iff {s : State} :
    firstFailedCheck s = some .programCounterOutOfRange ↔ s.codeSize ≤ s.pc.toNat ∨
      (s.pc.toNat < s.codeSize ∧ ∃ op, opcodeOf (fetchByte s s.pc.toNat) = some op ∧ s.codeSize < s.pc.toNat + opcodeLen op) := by
  obtain ⟨hout, hf⟩ | ⟨hpc, hnone, hf⟩ | ⟨op, hpc, hop, hcut, hf⟩ | ⟨op, hpc, hop, hfits, -⟩ := fetchInstr_cases s
  · simp [firstFailedCheck_of_fetch_error (congrArg Fetch.instr hf), hout]
  · simp [firstFailedCheck_of_fetch_error (congrArg Fetch.instr hf), hpc, hnone]
  · simp [firstFailedCheck_of_fetch_error (congrArg Fetch.instr hf), hpc, hop, hcut]
  · simp [firstFailedCheck_of_fits hop hfits, operandCheck_ne_programCounterOutOfRange, hpc, hop, hfits]

/-- Settles O11: the check that fails is a bound, the pc's or the whole instruction's. -/
theorem programCounterOutOfRangeHasTwoCauses : Obligations.ProgramCounterOutOfRangeHasTwoCauses := by
  intro s hrun
  obtain ⟨t, ht⟩ := step_answers_next hrun
  refine ⟨t, ht, fun p => (step_status_eq_causeStatus_iff ht .programCounterOutOfRange p).trans ?_⟩
  rw [firstFailedCheck_eq_programCounterOutOfRange_iff, ← and_or_left, and_congr_right_iff]
  refine fun _ => or_congr_right (and_congr_right fun hpc => runsPast_iff hpc)

/-- The opcodes with a register field are among those of three bytes. -/
theorem mem_threeByteOpcodes_of_registerField {b : Byte} (h : b ∈ twoRegisterOpcodes ∨ b = 0x49) : b ∈ threeByteOpcodes := by
  obtain h | rfl := h
  · have hsub : ∀ c ∈ twoRegisterOpcodes, c ∈ threeByteOpcodes := by decide
    exact hsub b h
  · decide

theorem operandCheck_eq_registerIndexOutOfRange_iff {op : Opcode} {b1 b2 : Byte} :
    operandCheck op b1 b2 = some .registerIndexOutOfRange ↔
      (opcodeTag op ∈ twoRegisterOpcodes ∧ (namesNoReg b1 ∨ namesNoReg b2)) ∨ (opcodeTag op = 0x49 ∧ namesNoReg b1) := by
  cases op with
  | store | load | add | sub | movr =>
    simp only [operandCheck, Option.ite_none_right_eq_some, and_true]
    simp [opcodeTag, twoRegisterOpcodes]
  | movi | branch | halt => simp [operandCheck, opcodeTag, twoRegisterOpcodes]

theorem firstFailedCheck_eq_registerIndexOutOfRange_iff {s : State} :
    firstFailedCheck s = some .registerIndexOutOfRange ↔ s.pc.toNat + 3 ≤ s.codeSize ∧
      ((fetchByte s s.pc.toNat ∈ twoRegisterOpcodes ∧
          (namesNoReg (fetchByte s (s.pc.toNat + 1)) ∨ namesNoReg (fetchByte s (s.pc.toNat + 2)))) ∨
        (fetchByte s s.pc.toNat = 0x49 ∧ namesNoReg (fetchByte s (s.pc.toNat + 1)))) := by
  have hthree (hfield : fetchByte s s.pc.toNat ∈ twoRegisterOpcodes ∨ fetchByte s s.pc.toNat = 0x49) :=
    three_of_mem_threeByteOpcodes (mem_threeByteOpcodes_of_registerField hfield)
  constructor
  · intro hc
    obtain ⟨-, hf⟩ | ⟨-, -, hf⟩ | ⟨_, -, -, -, hf⟩ | ⟨op, -, hop, hfits, -⟩ := fetchInstr_cases s
    case inr.inr.inr =>
      rw [firstFailedCheck_of_fits hop hfits, operandCheck_eq_registerIndexOutOfRange_iff, ← opcodeTag_of_opcodeOf hop] at hc
      obtain ⟨op', hop', hlen⟩ := hthree (hc.imp And.left And.left)
      obtain rfl := Option.some.inj (hop.symm.trans hop')
      exact ⟨hlen ▸ hfits, hc⟩
    all_goals simp [firstFailedCheck_of_fetch_error (congrArg Fetch.instr hf)] at hc
  · rintro ⟨hfits, hc⟩
    obtain ⟨op, hop, hlen⟩ := hthree (hc.imp And.left And.left)
    rwa [firstFailedCheck_of_fits hop (hlen ▸ hfits), operandCheck_eq_registerIndexOutOfRange_iff,
      ← opcodeTag_of_opcodeOf hop]

/-- Settles O12: the check that fails is that of a register byte of a whole instruction. -/
theorem registerIndexOutOfRangeHasOneCause : Obligations.RegisterIndexOutOfRangeHasOneCause := by
  intro s hrun
  obtain ⟨t, ht⟩ := step_answers_next hrun
  refine ⟨t, ht, fun p => (step_status_eq_causeStatus_iff ht .registerIndexOutOfRange p).trans ?_⟩
  rw [firstFailedCheck_eq_registerIndexOutOfRange_iff]

/-! The one way to halt (R137). -/

theorem fetchInstr_eq_halt_iff {s : State} : (fetchInstr s).instr = .ok .halt ↔
    s.pc.toNat < s.codeSize ∧ fetchByte s s.pc.toNat = 0x48 := by
  have hbyte : Memory.readBytes s.code s.pc.toNat 1 = [0x48] ↔ fetchByte s s.pc.toNat = 0x48 := by
    simp [Memory.readBytes, fetchByte]
  exact fetchInstr_eq_ok_iff.trans (and_congr_right fun _ => hbyte)

theorem step_status_halted_iff {s t : State} (h : step s = .next t) :
    t.status = .halted ↔ (fetchInstr s).instr = .ok .halt := by
  obtain ⟨hrun, ⟨i, hf, hexec⟩ | ⟨k, hf, rfl⟩⟩ := step_cases h
  · obtain ⟨-, hne, hs⟩ | ⟨rfl, rfl⟩ | ⟨hwf, rfl⟩ := exec_outcome hexec
    · simp [hf, hs, hrun, hne]
    · simp [hf]
    · have hne : i ≠ .halt := by
        rintro rfl
        cases hwf
      simp [hf, causeStatus_ne_halted, hne]
  · simp [hf, causeStatus_ne_halted]

/-- Settles O13: of all instructions only `H` halts, and its byte inside the code memory is all that is fetched of it. -/
theorem onlyHaltHaltsTheRun : Obligations.OnlyHaltHaltsTheRun := by
  intro s hrun
  obtain ⟨t, ht⟩ := step_answers_next hrun
  exact ⟨t, ht, (step_status_halted_iff ht).trans fetchInstr_eq_halt_iff⟩

end Sys2Proof.Machine
end

section
/-! SUPPORT. The proofs about the start of a run (10_state.md sections 6 and 7) and the invariant that every step keeps. -/

namespace Sys2Proof.Machine

/-! The memories at the start. -/

theorem fetchByte_start (h : HostInputs) (a : Nat) : fetchByte (State.start h) a = h.code[a]?.getD 0 := by
  simpa [fetchByte, State.start, unlistedByte] using Memory.read_ofBytes 0 a h.code

theorem initialDataByte_of_some {h : HostInputs} {v : Vector Byte 256} (hv : h.dataInit = some v) {k : Nat} (hk : k < 256) :
    initialDataByte h k = v[k] := by
  simp [initialDataByte, hv, hk]

theorem initialDataByte_of_none {h : HostInputs} (hv : h.dataInit = none) (k : Nat) : initialDataByte h k = 0 := by
  simp [initialDataByte, hv]

/-- Settles O40: each memory at the start reads as the bytes it is built from. -/
theorem startSetsTheMemories : Obligations.StartSetsTheMemories := by
  refine fun h => ⟨rfl, fun a ha => ?code, fun v hv k hk => ?supplied, fun hv k _ => ?absent, rfl⟩
  case code => rw [fetchByte_start, List.getElem?_eq_getElem ha, Option.getD_some]
  case supplied => rw [loadByte_start, initialDataByte_of_some hv hk]
  case absent => rw [loadByte_start, initialDataByte_of_none hv]

/-! The start meets the invariant. -/

/-- A memory built from bytes lists no address past them. -/
theorem Memory.ofBytes_below (a : Nat) (bs : List Byte) : Memory.below (Memory.ofBytes a bs) (a + bs.length) := by
  induction bs generalizing a with
  | nil => exact nofun
  | cons b bs ih =>
    have hrest : Memory.below (Memory.ofBytes (a + 1) bs) (a + (b :: bs).length) := by
      simpa [Nat.add_assoc, Nat.add_comm 1] using ih (a + 1)
    unfold Memory.ofBytes
    split
    · exact hrest
    · refine List.forall_mem_cons.mpr ⟨?_, hrest⟩
      rw [List.length_cons]
      omega

theorem initialData_wf (h : HostInputs) : Memory.wf (initialData h) := by
  unfold initialData
  split <;> exact Memory.ofBytes_wf 0 _

theorem initialData_below (h : HostInputs) : Memory.below (initialData h) Config.dataSize := by
  unfold initialData
  split
  · next v _ => simpa [Config.dataSize] using Memory.ofBytes_below 0 v.toList
  · exact nofun

theorem start_inv {h : HostInputs} (hwf : h.wf) : (State.start h).Inv where
  codeSize_le := hwf
  code_wf := Memory.ofBytes_wf 0 h.code
  code_below := by simpa [State.start] using Memory.ofBytes_below 0 h.code
  data_wf := initialData_wf h
  data_below := initialData_below h
  flags_consistent := nofun
  status_pc := nofun

/-- Settles O38: memories built from bytes are canonical and within those bytes. -/
theorem startMeetsTheInvariant : Obligations.StartMeetsTheInvariant := fun _ => start_inv

/-- Settles O41, field by field. -/
theorem resetIsAStart : Obligations.ResetIsAStart := rfl

/-- Settles O37: the reset state is a start with no code. -/
theorem resetMeetsTheInvariant : Obligations.ResetMeetsTheInvariant := by
  have hstart : State.reset = State.start { code := [], dataInit := none, r0Init := 0 } := resetIsAStart
  rw [Obligations.ResetMeetsTheInvariant, hstart]
  exact start_inv (Nat.zero_le _)

/-! What a step does to each piece that the invariant speaks of. -/

theorem exec_code_eq {i : Instr} {s t : State} (h : exec i s = .next t) : t.code = s.code := by
  cases i with
  | store | load | add | sub | movr => exact withRegs_ensures (P := fun t => t.code = s.code) h (fun _ _ => rfl) rfl
  | movi => exact withReg_ensures (P := fun t => t.code = s.code) h (fun _ => rfl) rfl
  | be | bn | bl =>
    cases h
    exact branch_code _ _ s
  | halt =>
    cases h
    rfl

theorem step_code_eq {s t : State} (h : step s = .next t) : t.code = s.code := by
  obtain ⟨-, ⟨i, -, hexec⟩ | ⟨k, -, rfl⟩⟩ := step_cases h
  · exact exec_code_eq hexec
  · rfl

theorem step_codeSize_eq {s t : State} (h : step s = .next t) : t.codeSize = s.codeSize := (step_keeps_code h).1

theorem dataOffset_lt (p : Word) : dataOffset p < Config.dataSize := by
  rw [dataOffset_eq_mod]
  exact Nat.mod_lt _ (by decide)

/-- The one byte a step can write lies inside the data memory. -/
theorem step_data_eq_or_write {s t : State} (h : step s = .next t) :
    t.data = s.data ∨ ∃ k v, k < Config.dataSize ∧ t.data = Memory.write s.data k v := by
  obtain hsame | ⟨p, v, -, rfl⟩ := step_data_cases h
  · exact .inl hsame
  · exact .inr ⟨_, _, dataOffset_lt (readReg p s), rfl⟩

/-- A zero intermediate has neither a sign nor a bit above the low 32. -/
theorem computeFlags_consistent (w : Wide) : (computeFlags w).consistent := by
  intro hz
  obtain rfl : w = 0 := eq_of_beq hz
  decide

/-- The flags after an instruction: kept, or computed from an intermediate (R104). -/
theorem exec_flags_cases {i : Instr} {s t : State} (h : exec i s = .next t) :
    t.flags = s.flags ∨ ∃ w, t.flags = computeFlags w := by
  cases i with
  | add | sub =>
    exact withRegs_ensures (P := fun t => t.flags = s.flags ∨ ∃ w, t.flags = computeFlags w) h
      (fun _ _ => .inr ⟨_, rfl⟩) (.inl rfl)
  | store | load | movr | movi | be | bn | bl | halt => exact .inl (exec_keeps_flags h nofun nofun)

theorem step_flags_cases {s t : State} (h : step s = .next t) : t.flags = s.flags ∨ ∃ w, t.flags = computeFlags w := by
  obtain ⟨-, ⟨i, -, hexec⟩ | ⟨k, -, rfl⟩⟩ := step_cases h
  · exact exec_flags_cases hexec
  · exact .inl rfl

/-- After any step a fault outcome names the pc, whatever the state before it was. -/
theorem step_statusNamesPc {s t : State} (h : step s = .next t) : statusNamesPc t := by
  intro p hp
  by_cases hrun : t.status = .running
  · simp [faultPc, hrun] at hp
  · obtain ⟨k, rfl⟩ | rfl := step_end_cases h hrun
    · rw [faultPc_raise] at hp
      exact (Option.some.inj hp).symm
    · cases hp

theorem step_keeps_inv {s t : State} (hinv : s.Inv) (h : step s = .next t) : t.Inv where
  codeSize_le := step_codeSize_eq h ▸ hinv.codeSize_le
  code_wf := step_code_eq h ▸ hinv.code_wf
  code_below := by
    rw [step_code_eq h, step_codeSize_eq h]
    exact hinv.code_below
  data_wf := by
    obtain hd | ⟨k, v, -, hd⟩ := step_data_eq_or_write h <;> rw [hd]
    · exact hinv.data_wf
    · exact Memory.write_wf k v hinv.data_wf
  data_below := by
    obtain hd | ⟨k, v, hk, hd⟩ := step_data_eq_or_write h <;> rw [hd]
    · exact hinv.data_below
    · exact Memory.write_below v hk hinv.data_below
  flags_consistent := by
    obtain hf | ⟨w, hf⟩ := step_flags_cases h <;> rw [hf]
    · exact hinv.flags_consistent
    · exact computeFlags_consistent w
  status_pc := step_statusNamesPc h

/-- Settles O36: each part of the invariant from what a step does to that piece of the state. -/
theorem everyStepKeepsTheInvariant : Obligations.EveryStepKeepsTheInvariant := fun _ _ => step_keeps_inv

end Sys2Proof.Machine
end

section
/-! SUPPORT. The proofs about branches taken and `H` (44_control.md): where a branch goes, and what the step at its target does. -/

namespace Sys2Proof.Machine

/-! The pc after a branch, by its condition (R130 to R135). -/

/-- A branch changes the pc alone: to the target where its condition holds, to the next instruction in sequence elsewhere. -/
theorem branch_eq {c : Bool} {P : Prop} [Decidable P] (hc : c = true ↔ P) (disp : Word) (s : State) :
    branch c disp s = { s with
      pc := if P then BitVec.ofInt 32 ((s.pc.toNat : Int) + 6 + disp.toInt) else s.pc + 6 } := by
  by_cases hP : P
  · rw [if_pos hP, hc.mpr hP]
    rfl
  · rw [if_neg hP, Bool.eq_false_iff.mpr (mt hc.mp hP)]
    rfl

theorem condEqual_eq_true_iff (f : Flags) : condEqual f = true ↔ f.z = true := Iff.rfl

theorem condNotEqual_eq_true_iff (f : Flags) : condNotEqual f = true ↔ f.z = false := by
  rw [condNotEqual, Bool.not_eq_true']

theorem condLess_eq_true_iff (f : Flags) : condLess f = true ↔ f.n ≠ f.o :=
  bne_iff_ne

theorem condLess_eq_xor (f : Flags) : condLess f = xor f.n f.o := rfl

/-- A branch that does not lie whole inside the code memory (R72, R74). -/
theorem step_of_branch_cutShort {s : State} (h : cutShort s 0x42 6) :
    step s = .next { s with status := .programCounterOutOfRange s.pc } :=
  step_of_cutShort (op := .branch) rfl h

/-- Settles O23: the condition is `Z`, and the six bytes are the encoding. -/
theorem branchIfEqualFollowsZero : Obligations.BranchIfEqualFollowsZero := by
  refine fun s disp => ⟨?_, step_of_placed_encode (i := .be disp), step_of_branch_cutShort⟩
  rw [exec_be, branch_eq (condEqual_eq_true_iff s.flags)]

/-- Settles O24: the condition is `Z` clear, and the six bytes are the encoding. -/
theorem branchIfNotEqualFollowsZero : Obligations.BranchIfNotEqualFollowsZero := by
  refine fun s disp => ⟨?_, step_of_placed_encode (i := .bn disp), step_of_branch_cutShort⟩
  rw [exec_bn, branch_eq (condNotEqual_eq_true_iff s.flags)]

/-- Settles O25: the condition is `N` xor `O`, and the six bytes are the encoding. -/
theorem branchIfLessFollowsNegativeXorOverflow : Obligations.BranchIfLessFollowsNegativeXorOverflow := by
  refine fun s disp => ⟨?_, step_of_placed_encode (i := .bl disp), step_of_branch_cutShort⟩
  rw [exec_bl, branch_eq (by rw [condLess_eq_xor])]

/-- Settles O27: halting sets the status alone, and the one byte is the encoding. -/
theorem haltStopsTheRun : Obligations.HaltStopsTheRun := fun s =>
  ⟨exec_halt s, fun h => (step_of_placed_encode (i := .halt) h).trans (exec_halt s)⟩

/-! A taken branch, whichever condition byte it has (R134). -/

/-- The condition that a condition byte names holds of the flags (R131 to R133). -/
def CondHolds (c : Byte) (f : Flags) : Prop :=
  c = 0x45 ∧ f.z = true ∨ c = 0x4E ∧ f.z = false ∨ c = 0x4C ∧ f.n ≠ f.o

theorem step_of_taken_branch {s : State} {c : Byte} {disp : Word} (hplaced : placedAt s (encodeBR c disp))
    (hc : CondHolds c s.flags) : step s = .next (setPc (branchTarget s.pc disp) s) := by
  obtain ⟨rfl, hz⟩ | ⟨rfl, hz⟩ | ⟨rfl, hno⟩ := hc
  · rw [step_of_placed_encode (i := .be disp) hplaced, exec_be, (condEqual_eq_true_iff _).mpr hz, branch_taken]
  · rw [step_of_placed_encode (i := .bn disp) hplaced, exec_bn, (condNotEqual_eq_true_iff _).mpr hz, branch_taken]
  · rw [step_of_placed_encode (i := .bl disp) hplaced, exec_bl, (condLess_eq_true_iff _).mpr hno, branch_taken]

theorem step_of_pc_outside {s : State} (hrun : s.status = .running) (hout : s.codeSize ≤ s.pc.toNat) :
    step s = .next { s with status := .programCounterOutOfRange s.pc } :=
  step_of_branch_cutShort ⟨hrun, .inl hout⟩

/-- A target below 0 wraps to the top half of the 32-bit range, as no displacement is below -2^31 (R136). -/
theorem branchTarget_toNat_of_neg {pc disp : Word} (hneg : (pc.toNat : Int) + 6 + disp.toInt < 0) :
    2 ^ 31 + 6 ≤ (branchTarget pc disp).toNat := by
  have hlo : -2 ^ 31 ≤ disp.toInt := BitVec.le_toInt disp
  have htarget : (branchTarget pc disp).toNat = (((pc.toNat : Int) + 6 + disp.toInt) % (2 ^ 32 : Nat)).toNat :=
    BitVec.toNat_ofInt _
  omega

/-- Settles O42: the branch sets the pc alone, so the next step makes the fetch bound check at the target. -/
theorem outOfRangeTargetFaultsAtTheNextStep : Obligations.OutOfRangeTargetFaultsAtTheNextStep := by
  intro s c disp hplaced hc
  have hrun : (setPc (branchTarget s.pc disp) s).status = .running := hplaced.1
  refine ⟨_, step_of_taken_branch hplaced hc, hrun, step_of_pc_outside hrun, fun hneg => ?_⟩
  have htarget := branchTarget_toNat_of_neg hneg
  refine ⟨htarget, fun hsize => step_of_pc_outside hrun ?_⟩
  rw [setPc_codeSize, setPc_pc]
  omega

/-! A branch to itself (R136). -/

theorem branchTarget_self (pc : Word) : branchTarget pc (le32 0xFA 0xFF 0xFF 0xFF) = pc := by
  have hdisp : (le32 0xFA 0xFF 0xFF 0xFF).toInt = -6 := by decide
  have hsum : (pc.toNat : Int) + (Config.branchTakenBase : Int) + -6 = pc.toNat := Int.add_neg_cancel_right _ 6
  rw [branchTarget, hdisp, hsum, BitVec.ofInt_natCast, BitVec.ofNat_toNat, BitVec.setWidth_eq]

theorem runFor_of_step_self {s : State} (h : step s = .next s) (n : Nat) : runFor n s = .next s := by
  induction n with
  | zero => rfl
  | succ n ih => rw [runFor_succ_of_step n h, ih]

/-- Settles O43: the displacement -6 makes the target the pc, so the step answers the state it began in. -/
theorem branchToItselfNeverEnds : Obligations.BranchToItselfNeverEnds := by
  intro s c hplaced hc
  rw [← encodeBR_le32] at hplaced
  have hstep := step_of_taken_branch hplaced hc
  rw [branchTarget_self] at hstep
  exact runFor_of_step_self hstep

end Sys2Proof.Machine
end

section
/-! SUPPORT. The proofs of what the flag rules and the address rule come to (42_arithmetic.md section 3, 20_memory.md section 2). -/

namespace Sys2Proof.Machine

/-! The consequences of the flag rules (R108). -/

/-- A sum carries exactly when its truncation is below an operand. -/
theorem computeFlags_addWide_o_iff (a b : Word) :
    (computeFlags (addWide a b)).o = true ↔ (trunc32 (addWide a b)).toNat < b.toNat := by
  rw [computeFlags_addWide, trunc32_addWide_toNat, decide_eq_true_iff]
  omega

theorem computeFlags_subWide_o_iff (a b : Word) : (computeFlags (subWide a b)).o = true ↔ a.toNat < b.toNat := by
  rw [computeFlags_subWide, decide_eq_true_iff]
  omega

/-- Below 2^31 a difference is in signed range, so its sign is its borrow. -/
theorem computeFlags_subWide_n_eq_o {a b : Word} (ha : a.toNat < 2 ^ 31) (hb : b.toNat < 2 ^ 31) :
    (computeFlags (subWide a b)).n = (computeFlags (subWide a b)).o := by
  rw [computeFlags_subWide, Nat.testBit_eq_decide_div_mod_eq, decide_eq_decide]
  omega

/-- `BL` is not taken where Negative equals Overflow. -/
theorem exec_bl_of_n_eq_o {s : State} (h : s.flags.n = s.flags.o) (disp : Word) :
    exec (.bl disp) s = .next { s with pc := s.pc + 6 } := by
  rw [exec_bl, (condLess_eq_false_iff s.flags).mpr h, branch_not_taken]
  rfl

/-- Settles O31, from the flags of a sum and of a difference as exact integers. -/
theorem flagConsequences : Obligations.FlagConsequences := by
  refine fun d r s => ⟨_, _, exec_add_regBytes d r s, exec_sub_regBytes d r s, computeFlags_consistent _,
    computeFlags_consistent _, ?carry, computeFlags_subWide_o_iff _ _, fun hd hr => ?less⟩
  case carry =>
    rw [writeArith_flags, readReg_writeArith_same]
    exact computeFlags_addWide_o_iff _ _
  case less =>
    have hno := computeFlags_subWide_n_eq_o hd hr
    exact ⟨hno, exec_bl_of_n_eq_o hno⟩

/-! The effective address (R32). -/

theorem effectiveAddress_eq (p : Word) : effectiveAddress p =
    if p.toNat % 256 < 128 then ((p.toNat % 256 : Nat) : Int) else ((p.toNat % 256 : Nat) : Int) - 256 := by
  rw [effectiveAddress, BitVec.toInt_eq_toNat_cond, lowByte_toNat]
  split_ifs <;> omega

/-- Settles O32: the offset is the pointer's low byte, and every byte is the low byte of a pointer. -/
theorem effectiveAddressIsTheSignedLowByte : Obligations.EffectiveAddressIsTheSignedLowByte := by
  refine ⟨fun p => ?_, fun k hk => ⟨BitVec.ofNat 32 k, ?_⟩⟩
  · have haddr := effectiveAddress_eq p
    have hoffset := dataOffset_eq_mod p
    refine ⟨?_, ?_, haddr, hoffset, ?_⟩ <;> split_ifs at haddr <;> omega
  · rw [dataOffset_eq_mod, BitVec.toNat_ofNat]
    omega

end Sys2Proof.Machine
end

section
/-! SUPPORT. The proofs about the block's interface: which code bytes a step asks for and depends on (20_memory.md section 5,
30_encoding.md section 3), and the outputs (10_state.md section 9, 60_exceptions.md section 5). -/

namespace Sys2Proof.Machine

/-! The offsets a fetch asks for (R44, R58). -/

theorem mem_instrOffsets {a p n : Nat} : a ∈ instrOffsets p n ↔ p ≤ a ∧ a < p + n := List.mem_range'_1

theorem mem_asked {s : State} {a : Nat} (h : a ∈ (fetchInstr s).asked) : a < s.codeSize ∧ s.pc.toNat ≤ a ∧
    (a = s.pc.toNat ∨ ∃ op, opcodeOf (fetchByte s s.pc.toNat) = some op ∧ a < s.pc.toNat + opcodeLen op) := by
  obtain ⟨-, hf⟩ | ⟨hpc, -, hf⟩ | ⟨_, hpc, -, -, hf⟩ | ⟨op, -, hop, hfits, hf⟩ := fetchInstr_cases s <;> rw [hf] at h
  · cases h
  · obtain rfl := List.mem_singleton.mp h
    exact ⟨hpc, Nat.le_refl _, .inl rfl⟩
  · obtain rfl := List.mem_singleton.mp h
    exact ⟨hpc, Nat.le_refl _, .inl rfl⟩
  · obtain ⟨hlo, hhi⟩ := mem_instrOffsets.mp h
    exact ⟨Nat.lt_of_lt_of_le hhi hfits, hlo, .inr ⟨op, hop, hhi⟩⟩

theorem codeAddrs_of_running {s : State} (hrun : s.status = .running) : codeAddrs s = (fetchInstr s).asked :=
  if_pos hrun

/-- Settles O46: a step of a running state asks for what its fetch asks for, an ended run for nothing. -/
theorem codePortStaysInBounds : Obligations.CodePortStaysInBounds := by
  intro s a h
  by_cases hrun : s.status = .running
  · rw [codeAddrs_of_running hrun] at h
    exact mem_asked h
  · simp [codeAddrs, hrun] at h

/-! Another code memory in the place of a state's own: no update of the rest of the state sees it. -/

/-- The state with its code memory replaced, its size kept. -/
def setCode (m : Memory) (s : State) : State := { s with code := m }

@[simp] theorem setCode_codeSize (m : Memory) (s : State) : (setCode m s).codeSize = s.codeSize := rfl
@[simp] theorem setCode_pc (m : Memory) (s : State) : (setCode m s).pc = s.pc := rfl
@[simp] theorem setCode_flags (m : Memory) (s : State) : (setCode m s).flags = s.flags := rfl
@[simp] theorem fetchByte_setCode (m : Memory) (s : State) (a : Nat) : fetchByte (setCode m s) a = Memory.read m a := rfl

theorem raise_setCode (k : Cause) (m : Memory) (s : State) : raise k (setCode m s) = setCode m (raise k s) := rfl

theorem branch_setCode (c : Bool) (disp : Word) (m : Memory) (s : State) :
    branch c disp (setCode m s) = setCode m (branch c disp s) := by
  cases c <;> rfl

/-- The register form carries another code memory through when the work it guards does. -/
theorem withRegs_setCode {a b : Byte} {m : Memory} {s t : State} {k k' : RegIdx → RegIdx → State}
    (hk : ∀ i j, k' i j = setCode m (k i j)) (h : withRegs a b s k = .next t) :
    withRegs a b (setCode m s) k' = .next (setCode m t) := by
  obtain ⟨i, j, rfl, rfl, rfl⟩ | ⟨hout, rfl⟩ := withRegs_cases h
  · rw [withRegs_regBytes, hk]
  · rw [withRegs_out_of_range hout, raise_setCode]

theorem withReg_setCode {a : Byte} {m : Memory} {s t : State} {k k' : RegIdx → State}
    (hk : ∀ i, k' i = setCode m (k i)) (h : withReg a s k = .next t) :
    withReg a (setCode m s) k' = .next (setCode m t) := by
  obtain ⟨i, rfl, rfl⟩ | ⟨hout, rfl⟩ := withReg_cases h
  · rw [withReg_regByte, hk]
  · rw [withReg_out_of_range hout, raise_setCode]

/-- No instruction's execution reads the code memory. -/
theorem exec_setCode {i : Instr} {s t : State} (m : Memory) (h : exec i s = .next t) :
    exec i (setCode m s) = .next (setCode m t) := by
  cases i with
  | store | load | add | sub | movr => exact withRegs_setCode (fun _ _ => rfl) h
  | movi => exact withReg_setCode (fun _ => rfl) h
  | be disp =>
    cases h
    rw [exec_be, setCode_flags, branch_setCode]
  | bn disp =>
    cases h
    rw [exec_bn, setCode_flags, branch_setCode]
  | bl disp =>
    cases h
    rw [exec_bl, setCode_flags, branch_setCode]
  | halt =>
    cases h
    rfl

/-! A fetch depends on the bytes it asks for alone. -/

theorem pc_mem_asked {s : State} (hpc : s.pc.toNat < s.codeSize) : s.pc.toNat ∈ (fetchInstr s).asked := by
  obtain ⟨hout, -⟩ | ⟨-, -, hf⟩ | ⟨_, -, -, -, hf⟩ | ⟨op, -, -, -, hf⟩ := fetchInstr_cases s
  · exact absurd hout (Nat.not_le.mpr hpc)
  · simp [hf]
  · simp [hf]
  · rw [hf]
    exact mem_instrOffsets.mpr ⟨Nat.le_refl _, Nat.lt_add_of_pos_right (opcodeLen_pos op)⟩

theorem decodeAt_setCode {m : Memory} {s : State} {offsets : List Nat}
    (h : ∀ a ∈ offsets, Memory.read m a = Memory.read s.code a) : decodeAt (setCode m s) offsets = decodeAt s offsets := by
  have hbytes : offsets.map (fetchByte (setCode m s)) = offsets.map (fetchByte s) := List.map_congr_left h
  rw [decodeAt, decodeAt, hbytes]

theorem fetchInstr_setCode {m : Memory} {s : State}
    (h : ∀ a ∈ (fetchInstr s).asked, Memory.read m a = Memory.read s.code a) : fetchInstr (setCode m s) = fetchInstr s := by
  have hhead (hpc : s.pc.toNat < s.codeSize) : Memory.read m s.pc.toNat = fetchByte s s.pc.toNat := h _ (pc_mem_asked hpc)
  obtain ⟨hout, hf⟩ | ⟨hpc, hnone, hf⟩ | ⟨op, hpc, hop, hcut, hf⟩ | ⟨op, hpc, hop, hfits, hf⟩ := fetchInstr_cases s <;>
    rw [hf] at h ⊢
  · simp [fetchInstr, hout]
  · simp [fetchInstr, Nat.not_le.mpr hpc, hhead hpc, hnone]
  · simp [fetchInstr, Nat.not_le.mpr hpc, hhead hpc, hop, hcut]
  · simp [fetchInstr, Nat.not_le.mpr hpc, hhead hpc, hop, Nat.not_lt.mpr hfits, decodeAt_setCode h]

theorem step_setCode {m : Memory} {s t : State} (h : step s = .next t)
    (hsame : ∀ a ∈ (fetchInstr s).asked, Memory.read m a = Memory.read s.code a) :
    step (setCode m s) = .next (setCode m t) := by
  obtain ⟨hrun, ⟨i, hf, hexec⟩ | ⟨k, hf, rfl⟩⟩ := step_cases h <;> rw [← fetchInstr_setCode hsame] at hf
  · exact (step_of_fetched (s := setCode m s) hrun hf).trans (exec_setCode m hexec)
  · exact step_of_cause (s := setCode m s) hrun hf

/-- Settles O47: the fetch finds the same, the execution carries the code memory through, and every offset asked for is the opcode's
or its instruction's. -/
theorem stepReadsOnlyTheInstructionBytes : Obligations.StepReadsOnlyTheInstructionBytes := by
  intro s t m h
  obtain ⟨hrun, -⟩ := step_cases h
  rw [codeAddrs_of_running hrun]
  refine ⟨step_setCode h, fun hpc hbytes => step_setCode h fun a ha => ?_⟩
  obtain ⟨-, hlo, rfl | ⟨op, hop, hhi⟩⟩ := mem_asked ha
  · exact hpc
  · exact hbytes op a hop hlo hhi

/-! The outputs (R29, R166, R184). -/

theorem result_of_halted {s : State} (h : s.status = .halted) : result s = some (readReg 0 s) := by
  simp [result, h]

theorem result_eq_none_iff {s : State} : result s = none ↔ s.status ≠ .halted := by
  unfold result
  split <;> simp [*]

theorem faultPc_of_halted {s : State} (h : s.status = .halted) : faultPc s = none := by
  simp [faultPc, h]

/-- Settles O44: the result is there exactly after `Halted`, whose status records no fault pc and which `H` sets. -/
theorem resultOnlyAfterHalt : Obligations.ResultOnlyAfterHalt := by
  refine ⟨fun _ => result_of_halted, fun _ => result_eq_none_iff, fun s p hp => ?_, fun s hplaced => ?_⟩
  · refine result_eq_none_iff.mpr fun hhalted => ?_
    simp [faultPc_of_halted hhalted] at hp
  · have hstep : step s = .next (haltRun s) := (haltStopsTheRun s).2 hplaced
    exact ⟨_, hstep, result_of_halted (haltRun_status s)⟩

/-- Settles O45, one code for each status. -/
theorem statusOutputCodes : Obligations.StatusOutputCodes := by
  refine ⟨rfl, rfl, fun _ => ⟨rfl, rfl, rfl⟩, fun st => ?_⟩
  cases st <;> simp [statusCode]

end Sys2Proof.Machine
end
